-- ==== Sys2Proof/Word.lean ====
section
/-! DEFINITION. The word types of the core (00_scope rules R8, R11): every value is unsigned bits of a fixed width. -/

namespace Sys2Proof

/-- One byte: a general register, a timer, a memory cell, the immediate NN. -/
abbrev Byte := BitVec 8

/-- Sixteen bits: an instruction word, PC, I, a return address. -/
abbrev Word := BitVec 16

/-- Four bits: the op-class and the field N (R71). -/
abbrev Nibble := BitVec 4

/-- The index of a general register, always from a 4-bit field, so always one of V0 to VF (R21). -/
abbrev Reg := BitVec 4

/-- The 12-bit address field NNN (R71). -/
abbrev Addr12 := BitVec 12

/-- The register that doubles as the flag register (R22). -/
abbrev VF : Reg := 0xF#4

end Sys2Proof
end

