-- ==== Sys2Proof/Config.lean ====
section
/-! DEFINITION. The sizes that are fixed (00_scope rule R8), the parameters the model takes (R9, 10_state rule R36), and the one
free value (41_alu rule R133). -/

namespace Sys2Proof

/-- Bytes of memory (R8). -/
abbrev memSize : Nat := 4096

/-- Bits of a display row (R8). -/
abbrev displayW : Nat := 64

/-- Rows of the display (R8). -/
abbrev displayH : Nat := 32

/-- Keys of the keypad (R8). -/
abbrev numKeys : Nat := 16

/-- FONT_BASE, fixed at 0x050 by D2 (10_state rule R31). -/
abbrev fontBase : Nat := 0x050

/-- Bytes of the font: 16 glyphs of 5 bytes (R8). -/
abbrev fontSize : Nat := 80

/-- STACK_LIMIT (R9, R28). -/
inductive StackLimit where
  | unbounded
  | bounded (entries : Nat)
  deriving DecidableEq, Repr

/-- SHIFT_SOURCE (R9, R131). -/
inductive ShiftSource where
  | vx
  | vy
  deriving DecidableEq, Repr

/-- SPRITE_EDGE (R9, R162). -/
inductive SpriteEdge where
  | clip
  | wrap
  deriving DecidableEq, Repr

/-- The parameters of R9 that are arguments of the model. They are fixed for the life of a core (R36). -/
structure Config where
  /-- STACK_LIMIT. -/
  stackLimit : StackLimit
  /-- SHIFT_SOURCE. -/
  shiftSource : ShiftSource
  /-- SPRITE_EDGE. -/
  spriteEdge : SpriteEdge
  /-- FONT_DATA: the font's 80 bytes. -/
  fontData : Vector Byte 80
  /-- RNG: the bytes of an injected generator, draw 0 first. Empty is the default of R9, the free draw; past its end the draw is
  free too (log 1). -/
  rngScript : List Byte
  deriving DecidableEq, Repr

/-- The free value: the random byte of a draw that no injected sequence fixes. R133 says "every value 0 to 255 is possible, with no
law relating successive draws": it has no body, so nothing can be proved of it (log 1). -/
opaque Config.freeRandomByte : Nat → Byte

end Sys2Proof
end

