-- ==== Sys2Proof/Syntax.lean ====
section
/-! DEFINITION. The instructions: one constructor for each of the 34 rows of the opcode map (30_encoding rule R75), in its order.
A field's type is its width, so a field outside its range cannot be written down. -/

namespace Sys2Proof

/-- An instruction with its operands (R73, R74). -/
inductive Instr where
  /-- `00E0` CLS -/
  | cls
  /-- `00EE` RET -/
  | ret
  /-- `1NNN` JP NNN -/
  | jp (nnn : Addr12)
  /-- `2NNN` CALL NNN -/
  | call (nnn : Addr12)
  /-- `3XNN` SE VX, NN -/
  | seByte (x : Reg) (nn : Byte)
  /-- `4XNN` SNE VX, NN -/
  | sneByte (x : Reg) (nn : Byte)
  /-- `5XY0` SE VX, VY -/
  | seReg (x y : Reg)
  /-- `6XNN` LD VX, NN -/
  | ldByte (x : Reg) (nn : Byte)
  /-- `7XNN` ADD VX, NN -/
  | addByte (x : Reg) (nn : Byte)
  /-- `8XY0` LD VX, VY -/
  | ldReg (x y : Reg)
  /-- `8XY1` OR VX, VY -/
  | orReg (x y : Reg)
  /-- `8XY2` AND VX, VY -/
  | andReg (x y : Reg)
  /-- `8XY3` XOR VX, VY -/
  | xorReg (x y : Reg)
  /-- `8XY4` ADD VX, VY -/
  | addReg (x y : Reg)
  /-- `8XY5` SUB VX, VY -/
  | sub (x y : Reg)
  /-- `8XY6` SHR VX {, VY}: Y is an operand only when SHIFT_SOURCE is VY, and is kept either way (R73). -/
  | shr (x y : Reg)
  /-- `8XY7` SUBN VX, VY -/
  | subn (x y : Reg)
  /-- `8XYE` SHL VX {, VY}: Y as for `shr`. -/
  | shl (x y : Reg)
  /-- `9XY0` SNE VX, VY -/
  | sneReg (x y : Reg)
  /-- `ANNN` LD I, NNN -/
  | ldI (nnn : Addr12)
  /-- `BNNN` JP V0, NNN -/
  | jpV0 (nnn : Addr12)
  /-- `CXNN` RND VX, NN -/
  | rnd (x : Reg) (nn : Byte)
  /-- `DXYN` DRW VX, VY, N -/
  | drw (x y : Reg) (n : Nibble)
  /-- `EX9E` SKP VX -/
  | skp (x : Reg)
  /-- `EXA1` SKNP VX -/
  | sknp (x : Reg)
  /-- `FX07` LD VX, DT -/
  | ldVxDt (x : Reg)
  /-- `FX0A` LD VX, K -/
  | ldVxK (x : Reg)
  /-- `FX15` LD DT, VX -/
  | ldDtVx (x : Reg)
  /-- `FX18` LD ST, VX -/
  | ldStVx (x : Reg)
  /-- `FX1E` ADD I, VX -/
  | addI (x : Reg)
  /-- `FX29` LD F, VX -/
  | ldF (x : Reg)
  /-- `FX33` LD B, VX -/
  | ldB (x : Reg)
  /-- `FX55` LD [I], VX -/
  | storeRegs (x : Reg)
  /-- `FX65` LD VX, [I] -/
  | loadRegs (x : Reg)
  deriving DecidableEq, Repr

end Sys2Proof
end

