-- ==== Sys2Proof/WellFormed.lean ====
section
/-! DEFINITION. What the spec asks of an instruction and of a configuration beyond what their types say. -/

namespace Sys2Proof

/-- Every operand is a field of 4, 8 or 12 bits and every value of it is legal (30_encoding rules R73, R74), and the operands' types
have exactly these widths, so no instruction is ill-formed. -/
def Instr.wellFormed : Instr → Bool
  | .cls | .ret => true
  | .jp _ | .call _ | .ldI _ | .jpV0 _ => true
  | .seByte _ _ | .sneByte _ _ | .ldByte _ _ | .addByte _ _ | .rnd _ _ => true
  | .seReg _ _ | .sneReg _ _ | .ldReg _ _ | .orReg _ _ | .andReg _ _ | .xorReg _ _ => true
  | .addReg _ _ | .sub _ _ | .shr _ _ | .subn _ _ | .shl _ _ => true
  | .drw _ _ _ => true
  | .skp _ | .sknp _ | .ldVxDt _ | .ldVxK _ | .ldDtVx _ | .ldStVx _ => true
  | .addI _ | .ldF _ | .ldB _ | .storeRegs _ | .loadRegs _ => true

/-- STACK_LIMIT is `unbounded` or "a natural number L >= 1" (00_scope rule R9). -/
def StackLimit.wellFormed : StackLimit → Bool
  | .unbounded => true
  | .bounded entries => 1 ≤ entries

/-- What R9 asks of the parameters: the rest of a configuration is legal by its type. -/
def Config.wellFormed (c : Config) : Bool := c.stackLimit.wellFormed

/-- The condition of R9 on a place for the font: FONT_BASE + 80 <= 4096. -/
def fontBaseFits (base : Nat) : Bool := base + fontSize ≤ memSize

end Sys2Proof
end

