-- ==== Sys2Proof/Decode.lean ====
section
/-! DEFINITION. Fields of an instruction word, the decoder, the encoder and the opcode map (30_encoding rules R71 to R78). -/

namespace Sys2Proof

/-- The op-class, bits 15:12 (R71). -/
def opClass (w : Word) : Nibble := w.extractLsb' 12 4

/-- X, bits 11:8 (R71). -/
def fieldX (w : Word) : Reg := w.extractLsb' 8 4

/-- Y, bits 7:4 (R71). -/
def fieldY (w : Word) : Reg := w.extractLsb' 4 4

/-- N, bits 3:0 (R71). -/
def fieldN (w : Word) : Nibble := w.extractLsb' 0 4

/-- NN, bits 7:0 (R71). -/
def fieldNN (w : Word) : Byte := w.extractLsb' 0 8

/-- NNN, bits 11:0 (R71). -/
def fieldNNN (w : Word) : Addr12 := w.extractLsb' 0 12

/-- The word of two bytes, "high byte at the lower address" (20_memory rule R51). -/
def wordOfBytes (hi lo : Byte) : Word := hi ++ lo

/-- The byte of a word that is stored at the lower address (R51). -/
def highByte (w : Word) : Byte := w.extractLsb' 8 8

/-- The byte of a word that is stored at the higher address (R51). -/
def lowByte (w : Word) : Byte := w.extractLsb' 0 8

/-- Why a decoder gives no instruction. -/
inductive DecodeError where
  /-- The word matches no row of the opcode map (R76). -/
  | unimplementedOpcode (w : Word)
  /-- There are fewer than the two bytes of an instruction: only for a list of bytes, never in a step. -/
  | tooFewBytes
  deriving DecidableEq, Repr

/-- Class 0x0 is keyed on the whole word (R74). -/
def decodeClass0 (w : Word) : Except DecodeError Instr :=
  if w = 0x00E0#16 then .ok .cls
  else if w = 0x00EE#16 then .ok .ret
  else .error (.unimplementedOpcode w)

/-- Class 0x8 is keyed on N (R74). -/
def decodeClass8 (w : Word) : Except DecodeError Instr :=
  match (fieldN w).toNat with
  | 0x0 => .ok (.ldReg (fieldX w) (fieldY w))
  | 0x1 => .ok (.orReg (fieldX w) (fieldY w))
  | 0x2 => .ok (.andReg (fieldX w) (fieldY w))
  | 0x3 => .ok (.xorReg (fieldX w) (fieldY w))
  | 0x4 => .ok (.addReg (fieldX w) (fieldY w))
  | 0x5 => .ok (.sub (fieldX w) (fieldY w))
  | 0x6 => .ok (.shr (fieldX w) (fieldY w))
  | 0x7 => .ok (.subn (fieldX w) (fieldY w))
  | 0xE => .ok (.shl (fieldX w) (fieldY w))
  | _ => .error (.unimplementedOpcode w)

/-- Class 0xE is keyed on NN (R74). -/
def decodeClassE (w : Word) : Except DecodeError Instr :=
  match (fieldNN w).toNat with
  | 0x9E => .ok (.skp (fieldX w))
  | 0xA1 => .ok (.sknp (fieldX w))
  | _ => .error (.unimplementedOpcode w)

/-- Class 0xF is keyed on NN (R74). -/
def decodeClassF (w : Word) : Except DecodeError Instr :=
  match (fieldNN w).toNat with
  | 0x07 => .ok (.ldVxDt (fieldX w))
  | 0x0A => .ok (.ldVxK (fieldX w))
  | 0x15 => .ok (.ldDtVx (fieldX w))
  | 0x18 => .ok (.ldStVx (fieldX w))
  | 0x1E => .ok (.addI (fieldX w))
  | 0x29 => .ok (.ldF (fieldX w))
  | 0x33 => .ok (.ldB (fieldX w))
  | 0x55 => .ok (.storeRegs (fieldX w))
  | 0x65 => .ok (.loadRegs (fieldX w))
  | _ => .error (.unimplementedOpcode w)

/-- Decode (R74): strict, so classes 0x5 and 0x9 need N = 0 (90_conflicts C2), and every word of no row is refused by name (R76). -/
def decode (w : Word) : Except DecodeError Instr :=
  match (opClass w).toNat with
  | 0x0 => decodeClass0 w
  | 0x1 => .ok (.jp (fieldNNN w))
  | 0x2 => .ok (.call (fieldNNN w))
  | 0x3 => .ok (.seByte (fieldX w) (fieldNN w))
  | 0x4 => .ok (.sneByte (fieldX w) (fieldNN w))
  | 0x5 => if fieldN w = 0#4 then .ok (.seReg (fieldX w) (fieldY w)) else .error (.unimplementedOpcode w)
  | 0x6 => .ok (.ldByte (fieldX w) (fieldNN w))
  | 0x7 => .ok (.addByte (fieldX w) (fieldNN w))
  | 0x8 => decodeClass8 w
  | 0x9 => if fieldN w = 0#4 then .ok (.sneReg (fieldX w) (fieldY w)) else .error (.unimplementedOpcode w)
  | 0xA => .ok (.ldI (fieldNNN w))
  | 0xB => .ok (.jpV0 (fieldNNN w))
  | 0xC => .ok (.rnd (fieldX w) (fieldNN w))
  | 0xD => .ok (.drw (fieldX w) (fieldY w) (fieldN w))
  | 0xE => decodeClassE w
  | 0xF => decodeClassF w
  | _ => .error (.unimplementedOpcode w)

/-- The instruction at the head of a list of bytes, and the bytes after it: every instruction is two bytes (R73, R78). -/
def decodeBytes : List Byte → Except DecodeError (Instr × List Byte)
  | hi :: lo :: rest =>
    match decode (wordOfBytes hi lo) with
    | .ok i => .ok (i, rest)
    | .error e => .error e
  | _ => .error .tooFewBytes

/-- Format A (R73): the op-class and NNN. -/
def formatA (op : Nibble) (nnn : Addr12) : Word := op ++ nnn

/-- Formats XB and XS (R73): the op-class, X, and a byte that is NN or the fixed sub-op. -/
def formatXB (op : Nibble) (x : Reg) (nn : Byte) : Word := op ++ x ++ nn

/-- Formats XYS and XYN (R73): the op-class, X, Y, and a nibble that is the fixed sub-op or N. -/
def formatXYN (op : Nibble) (x y : Reg) (n : Nibble) : Word := op ++ x ++ y ++ n

/-- The word of an instruction (R73, R75). -/
def encode : Instr → Word
  | .cls => 0x00E0#16
  | .ret => 0x00EE#16
  | .jp nnn => formatA 0x1#4 nnn
  | .call nnn => formatA 0x2#4 nnn
  | .seByte x nn => formatXB 0x3#4 x nn
  | .sneByte x nn => formatXB 0x4#4 x nn
  | .seReg x y => formatXYN 0x5#4 x y 0x0#4
  | .ldByte x nn => formatXB 0x6#4 x nn
  | .addByte x nn => formatXB 0x7#4 x nn
  | .ldReg x y => formatXYN 0x8#4 x y 0x0#4
  | .orReg x y => formatXYN 0x8#4 x y 0x1#4
  | .andReg x y => formatXYN 0x8#4 x y 0x2#4
  | .xorReg x y => formatXYN 0x8#4 x y 0x3#4
  | .addReg x y => formatXYN 0x8#4 x y 0x4#4
  | .sub x y => formatXYN 0x8#4 x y 0x5#4
  | .shr x y => formatXYN 0x8#4 x y 0x6#4
  | .subn x y => formatXYN 0x8#4 x y 0x7#4
  | .shl x y => formatXYN 0x8#4 x y 0xE#4
  | .sneReg x y => formatXYN 0x9#4 x y 0x0#4
  | .ldI nnn => formatA 0xA#4 nnn
  | .jpV0 nnn => formatA 0xB#4 nnn
  | .rnd x nn => formatXB 0xC#4 x nn
  | .drw x y n => formatXYN 0xD#4 x y n
  | .skp x => formatXB 0xE#4 x 0x9E#8
  | .sknp x => formatXB 0xE#4 x 0xA1#8
  | .ldVxDt x => formatXB 0xF#4 x 0x07#8
  | .ldVxK x => formatXB 0xF#4 x 0x0A#8
  | .ldDtVx x => formatXB 0xF#4 x 0x15#8
  | .ldStVx x => formatXB 0xF#4 x 0x18#8
  | .addI x => formatXB 0xF#4 x 0x1E#8
  | .ldF x => formatXB 0xF#4 x 0x29#8
  | .ldB x => formatXB 0xF#4 x 0x33#8
  | .storeRegs x => formatXB 0xF#4 x 0x55#8
  | .loadRegs x => formatXB 0xF#4 x 0x65#8

/-- A row of the opcode map: a word `w` selects it when `w &&& mask = value` (R75). -/
structure OpcodeRow where
  mask : Word
  value : Word
  deriving DecidableEq, Repr

/-- The row of the opcode map an instruction belongs to: its mask and its match value (R75). -/
def Instr.row : Instr → OpcodeRow
  | .cls => ⟨0xFFFF#16, 0x00E0#16⟩
  | .ret => ⟨0xFFFF#16, 0x00EE#16⟩
  | .jp _ => ⟨0xF000#16, 0x1000#16⟩
  | .call _ => ⟨0xF000#16, 0x2000#16⟩
  | .seByte _ _ => ⟨0xF000#16, 0x3000#16⟩
  | .sneByte _ _ => ⟨0xF000#16, 0x4000#16⟩
  | .seReg _ _ => ⟨0xF00F#16, 0x5000#16⟩
  | .ldByte _ _ => ⟨0xF000#16, 0x6000#16⟩
  | .addByte _ _ => ⟨0xF000#16, 0x7000#16⟩
  | .ldReg _ _ => ⟨0xF00F#16, 0x8000#16⟩
  | .orReg _ _ => ⟨0xF00F#16, 0x8001#16⟩
  | .andReg _ _ => ⟨0xF00F#16, 0x8002#16⟩
  | .xorReg _ _ => ⟨0xF00F#16, 0x8003#16⟩
  | .addReg _ _ => ⟨0xF00F#16, 0x8004#16⟩
  | .sub _ _ => ⟨0xF00F#16, 0x8005#16⟩
  | .shr _ _ => ⟨0xF00F#16, 0x8006#16⟩
  | .subn _ _ => ⟨0xF00F#16, 0x8007#16⟩
  | .shl _ _ => ⟨0xF00F#16, 0x800E#16⟩
  | .sneReg _ _ => ⟨0xF00F#16, 0x9000#16⟩
  | .ldI _ => ⟨0xF000#16, 0xA000#16⟩
  | .jpV0 _ => ⟨0xF000#16, 0xB000#16⟩
  | .rnd _ _ => ⟨0xF000#16, 0xC000#16⟩
  | .drw _ _ _ => ⟨0xF000#16, 0xD000#16⟩
  | .skp _ => ⟨0xF0FF#16, 0xE09E#16⟩
  | .sknp _ => ⟨0xF0FF#16, 0xE0A1#16⟩
  | .ldVxDt _ => ⟨0xF0FF#16, 0xF007#16⟩
  | .ldVxK _ => ⟨0xF0FF#16, 0xF00A#16⟩
  | .ldDtVx _ => ⟨0xF0FF#16, 0xF015#16⟩
  | .ldStVx _ => ⟨0xF0FF#16, 0xF018#16⟩
  | .addI _ => ⟨0xF0FF#16, 0xF01E#16⟩
  | .ldF _ => ⟨0xF0FF#16, 0xF029#16⟩
  | .ldB _ => ⟨0xF0FF#16, 0xF033#16⟩
  | .storeRegs _ => ⟨0xF0FF#16, 0xF055#16⟩
  | .loadRegs _ => ⟨0xF0FF#16, 0xF065#16⟩

/-- The opcode map of R75: its 34 rows in its order. -/
def opcodeMap : List OpcodeRow :=
  [.cls, .ret, .jp 0, .call 0, .seByte 0 0, .sneByte 0 0, .seReg 0 0, .ldByte 0 0, .addByte 0 0, .ldReg 0 0, .orReg 0 0,
    .andReg 0 0, .xorReg 0 0, .addReg 0 0, .sub 0 0, .shr 0 0, .subn 0 0].map Instr.row ++
  [.shl 0 0, .sneReg 0 0, .ldI 0, .jpV0 0, .rnd 0 0, .drw 0 0 0, .skp 0, .sknp 0, .ldVxDt 0, .ldVxK 0, .ldDtVx 0, .ldStVx 0,
    .addI 0, .ldF 0, .ldB 0, .storeRegs 0, .loadRegs 0].map Instr.row

/-- A word as `spec/opcode_table.json` numbers its bits: bit 0 is the least significant bit of the only word, and every bit above
`nbits` is 0 (log 15). -/
def tableWord (nbits w : Nat) : Word := BitVec.ofNat 16 (w % 2 ^ nbits)

/-- The instruction the decoder reads from the table's word `w` laid out big-endian, or none where the decoder refuses. -/
def decodeTableWord (nbits w : Nat) : Option Instr :=
  match decodeBytes [highByte (tableWord nbits w), lowByte (tableWord nbits w)] with
  | .ok (i, _) => some i
  | .error _ => none

end Sys2Proof
end

