-- ==== Sys2Proof/Machine/Font.lean ====
section
/-! DEFINITION. The default font bytes (10_state rule R31) and the default configuration (00_scope rule R9). -/

namespace Sys2Proof.Machine

/-- The default FONT_DATA, glyphs 0 to F, five bytes each, top row first (R31). The spec's table comes "from general knowledge, not
in source", and the bytes are a parameter (D2). -/
def standardFont : Vector Byte 80 := #v[
  0xF0, 0x90, 0x90, 0x90, 0xF0,
  0x20, 0x60, 0x20, 0x20, 0x70,
  0xF0, 0x10, 0xF0, 0x80, 0xF0,
  0xF0, 0x10, 0xF0, 0x10, 0xF0,
  0x90, 0x90, 0xF0, 0x10, 0x10,
  0xF0, 0x80, 0xF0, 0x10, 0xF0,
  0xF0, 0x80, 0xF0, 0x90, 0xF0,
  0xF0, 0x10, 0x20, 0x40, 0x40,
  0xF0, 0x90, 0xF0, 0x90, 0xF0,
  0xF0, 0x90, 0xF0, 0x10, 0xF0,
  0xF0, 0x90, 0xF0, 0x90, 0x90,
  0xE0, 0x90, 0xE0, 0x90, 0xE0,
  0xF0, 0x80, 0x80, 0x80, 0xF0,
  0xE0, 0x90, 0x90, 0x90, 0xE0,
  0xF0, 0x80, 0xF0, 0x80, 0xF0,
  0xF0, 0x80, 0xF0, 0x80, 0x80]

/-- The configuration whose every parameter has the default of R9. -/
def defaultConfig : Config where
  stackLimit := .unbounded
  shiftSource := .vx
  spriteEdge := .clip
  fontData := standardFont
  rngScript := []

end Sys2Proof.Machine
end

