-- ==== Sys2Proof/Machine/State.lean ====
section
/-! DEFINITION. The architectural state (10_state rule R20), the fault status register (R34), the reasons a step could stop, and the
state after construction (70_reset_and_hazards rule R240). -/

namespace Sys2Proof.Machine

/-- The kinds of fault a step can raise (60_exceptions rules R200, R201). -/
inductive FaultCode where
  | unimplementedOpcode
  | stackUnderflow
  | memoryOutOfBounds
  | invalidKeyIndex
  | stackOverflow
  deriving DecidableEq, Repr

/-- The record the fault status register holds once a step has raised (R34, R201). -/
structure FaultRecord where
  /-- Which fault. -/
  code : FaultCode
  /-- The address the faulting step fetched from, or would have. -/
  pc : Word
  /-- The instruction word, absent when the fetch itself failed. -/
  word : Option Word
  /-- The lowest out-of-range address, for MemoryOutOfBounds only. The spec gives it no width (log 10). -/
  addr : Option Nat
  deriving DecidableEq, Repr

/-- Everything the machine holds (R20), with the parameters it was constructed with (R36, log 3) and the model's own count of random
draws (log 2). -/
structure State where
  /-- V0 to VF (R21, R22). -/
  v : Vector Byte 16
  /-- The index register I (R25). -/
  i : Word
  /-- The program counter (R23): between steps, the address of the instruction to fetch. -/
  pc : Word
  /-- The call stack, newest return address first (R27). -/
  stack : List Word
  /-- The delay timer (R29). -/
  dt : Byte
  /-- The sound timer (R29). -/
  st : Byte
  /-- Memory (R30): the cells that differ from the reset image, addresses strictly rising. -/
  mem : List Host.Cell
  /-- The display (R32): row by row, the bit of column `c` at bit number `c`. -/
  fb : Vector (BitVec 64) 32
  /-- The keypad (R33): key `k` is pressed. -/
  keys : Vector Bool 16
  /-- The fault status register (R34). -/
  fault : Option FaultRecord
  /-- The parameters (R36): no step and no port writes them. -/
  cfg : Config
  /-- How many random bytes CXNN has consumed (R133); the model's own field. -/
  rngDraws : Nat
  deriving DecidableEq, Repr

/-- The reasons a step of this model could stop the machine instead of answering a next state: there are none. Every fault of the spec
has an entry the spec describes (60_exceptions rule R203), so taking it is a next state with the fault status register set
(`State.takeFault`), and a step of a faulted core is a next state too (R204). Nobody raises a value of this type, which is safe (log 7). -/
inductive Fault where
  deriving DecidableEq, Repr

/-- The reasons an instruction could be refused. -/
inductive Refusal where
  /-- An instruction without a meaning in this model, by its mnemonic: raised only by an arm of `exec` written so. No arm is: every
  instruction has its meaning. Raising it would be safe (the model stops where the hardware goes on). -/
  | notModelled (mnemonic : String)
  deriving DecidableEq, Repr

/-- Construction with given parameters (R240): PC at 0x200, memory as the reset image (no cell differs from it), and every other value
0, empty, off, released or None. -/
def State.construct (c : Config) : State where
  v := Vector.replicate 16 0#8
  i := 0#16
  pc := 0x200#16
  stack := []
  dt := 0#8
  st := 0#8
  mem := []
  fb := Vector.replicate 32 0#64
  keys := Vector.replicate 16 false
  fault := none
  cfg := c
  rngDraws := 0

/-- The machine right after construction with the default parameters (R9, R240). -/
def State.reset : State := State.construct defaultConfig

end Sys2Proof.Machine
end

