-- ==== Sys2Proof/Machine/Ops.lean ====
section
/-! DEFINITION. The named operations over registers, memory, stack, keypad and random source (00_scope rule R12), raising and taking a
fault (60_exceptions rules R201, R203), and the frame in which every instruction executes (30_encoding rule R72). -/

namespace Sys2Proof.Machine

/-! ## Raising a fault -/

/-- What a statement of a rule raises, with its information (R12, R200). -/
inductive Raise where
  /-- The decoder refused the word (R76). -/
  | unimplementedOpcode
  /-- 00EE on an empty stack (R100). -/
  | stackUnderflow
  /-- A computed address at or above 4096 (R54). -/
  | memoryOutOfBounds (addr : Nat)
  /-- EX9E or EXA1 with VX at or above 16 (R171). -/
  | invalidKeyIndex (value : Byte)
  /-- 2NNN on a full stack (R102). -/
  | stackOverflow
  deriving DecidableEq, Repr

/-- The kind the fault record holds (R201). -/
def Raise.code : Raise → FaultCode
  | .unimplementedOpcode => .unimplementedOpcode
  | .stackUnderflow => .stackUnderflow
  | .memoryOutOfBounds _ => .memoryOutOfBounds
  | .invalidKeyIndex _ => .invalidKeyIndex
  | .stackOverflow => .stackOverflow

/-- The address the fault record holds: for MemoryOutOfBounds only (R201). -/
def Raise.addr : Raise → Option Nat
  | .memoryOutOfBounds a => some a
  | .unimplementedOpcode | .stackUnderflow | .invalidKeyIndex _ | .stackOverflow => none

/-- The number of a fault kind (R201); 0 stands for no fault. -/
def FaultCode.number : FaultCode → Nat
  | .unimplementedOpcode => 1
  | .stackUnderflow => 2
  | .memoryOutOfBounds => 3
  | .invalidKeyIndex => 4
  | .stackOverflow => 5

/-- TAKING A FAULT (R203), the one entry all faults share. `s` is the state before the step, so its PC is the address fetched from; the
working copy of the step is discarded and only the fault status register is written. There is no handler, vector, saved status or mode,
and no return (R205): only construction clears the register (R204). -/
def State.takeFault (s : State) (word : Option Word) (r : Raise) : State :=
  { s with fault := some { code := r.code, pc := s.pc, word := word, addr := r.addr } }

/-! ## General registers -/

/-- `V[x]` (R12, R21). -/
def State.getV (s : State) (x : Reg) : Byte := s.v[x.toNat]'(by have := x.isLt; omega)

/-- `V[x] <- b` (R12, R21). -/
def State.setV (s : State) (x : Reg) (b : Byte) : State :=
  { s with v := s.v.set x.toNat b (by have := x.isLt; omega) }

/-! ## Index register and timers -/

/-- `I <- a` (R12, R25). -/
def State.setI (s : State) (a : Word) : State := { s with i := a }

/-- `DT <- b` (R12, R29). -/
def State.setDt (s : State) (b : Byte) : State := { s with dt := b }

/-- `ST <- b` (R12, R29). -/
def State.setSt (s : State) (b : Byte) : State := { s with st := b }

/-! ## PC -/

/-- The fetch's side effect: PC advances by 2 (R70), so that the rules' `PC` is a + 2. -/
def State.advance (s : State) : State := { s with pc := s.pc + 2 }

/-- `pc <- target` (R12). -/
def State.jump (s : State) (target : Word) : State := { s with pc := target }

/-- Skip (40_control_flow rule R104): PC advances by 2 more when the condition holds. -/
def State.skipIf (s : State) (condition : Bool) : State :=
  if condition then { s with pc := s.pc + 2 } else s

/-- `zext_16(NNN)` (R74). -/
def zext16 (nnn : Addr12) : Word := nnn.setWidth 16

/-! ## Memory -/

/-- The reset image, which is what an unlisted address reads as (R30, R31): the font at FONT_BASE, 0 elsewhere. -/
def resetByte (c : Config) (a : Nat) : Byte :=
  if h : fontBase ≤ a ∧ a < fontBase + fontSize then c.fontData[a - fontBase]'(by simp only [fontBase, fontSize] at h ⊢; omega) else 0#8

/-- The listed cell of an address, if any. -/
def Memory.lookup : List Host.Cell → Nat → Option Byte
  | [], _ => none
  | (k, b) :: m, a => if k = a then some b else Memory.lookup m a

/-- The byte at an address. -/
def Memory.read (c : Config) (m : List Host.Cell) (a : Nat) : Byte :=
  (Memory.lookup m a).getD (resetByte c a)

/-- Put a byte at the head of a list whose addresses are above `a`, unless the reset image has it already. -/
def Memory.cons (c : Config) (a : Nat) (b : Byte) (m : List Host.Cell) : List Host.Cell :=
  if b = resetByte c a then m else (a, b) :: m

/-- Write one byte, keeping the canonical form. -/
def Memory.write (c : Config) : List Host.Cell → Nat → Byte → List Host.Cell
  | [], a, b => Memory.cons c a b []
  | (k, w) :: m, a, b =>
    if a < k then Memory.cons c a b ((k, w) :: m)
    else if k = a then Memory.cons c a b m
    else (k, w) :: Memory.write c m a b

/-- The canonical form: addresses below 4096 and strictly rising, no cell equal to the reset image. -/
def Memory.wf (c : Config) : List Host.Cell → Bool
  | [] => true
  | (a, b) :: m => decide (a < memSize) && (b != resetByte c a) && m.all (fun cell => decide (a < cell.1)) && Memory.wf c m

/-- The byte of memory at an address: the read of one byte in which statements about memory speak. -/
def State.readByte (s : State) (a : Nat) : Byte := Memory.read s.cfg s.mem a

/-- Store one byte. The caller has checked the address; there is no byte at 4096 or above to store to (R54). -/
def State.writeByte (s : State) (a : Nat) (b : Byte) : State :=
  if memSize ≤ a then s else { s with mem := Memory.write s.cfg s.mem a b }

/-- Store bytes at consecutive addresses in ascending order (R53), the range checked by the caller. -/
def State.writeBytes (s : State) (base : Nat) : List Byte → State
  | [] => s
  | b :: bytes => State.writeBytes (s.writeByte base b) (base + 1) bytes

/-- `MemRead(addr, 1)` (R12, R54). -/
def State.memRead (s : State) (a : Nat) : Except Raise Byte :=
  if memSize ≤ a then .error (.memoryOutOfBounds a) else .ok (s.readByte a)

/-- CheckRange (R58) for `n >= 1` bytes from `base`; the reported address is the lowest one out of range. -/
def checkRange (base n : Nat) : Except Raise Unit :=
  if memSize ≤ base + n - 1 then .error (.memoryOutOfBounds (max base memSize)) else .ok ()

/-- A computed address: valid, or MemoryOutOfBounds at once (R54, D4). -/
def checkAddress (t : Nat) : Except Raise Word :=
  if memSize ≤ t then .error (.memoryOutOfBounds t) else .ok (BitVec.ofNat 16 t)

/-! ## Call stack -/

/-- Whether STACK_LIMIT is a number and the stack holds that many entries (R28, R102). -/
def State.stackFull (s : State) : Bool :=
  match s.cfg.stackLimit with
  | .unbounded => false
  | .bounded entries => s.stack.length == entries

/-- `Push(a)` (R27), or StackOverflow on a full stack (R28). -/
def State.push (s : State) (a : Word) : Except Raise State :=
  if s.stackFull then .error .stackOverflow else .ok { s with stack := a :: s.stack }

/-- `Pop()` (R27): the newest return address and the state without it, or StackUnderflow. -/
def State.pop (s : State) : Except Raise (Word × State) :=
  match s.stack with
  | [] => .error .stackUnderflow
  | a :: rest => .ok (a, { s with stack := rest })

/-! ## Keypad -/

/-- `K[k]` (R12): the snapshot of R170 is the keypad of the state the step starts from, which no step changes (log 12). -/
def State.key (s : State) (k : Nibble) : Bool := s.keys[k.toNat]'(by have := k.isLt; omega)

/-- The keys in ascending order of index. -/
def keyIndices : List Nibble := [0x0, 0x1, 0x2, 0x3, 0x4, 0x5, 0x6, 0x7, 0x8, 0x9, 0xA, 0xB, 0xC, 0xD, 0xE, 0xF]

/-- `min(P)`, the lowest-indexed pressed key, or none (44_keypad_timers rule R175). -/
def State.lowestKey (s : State) : Option Nibble := keyIndices.find? s.key

/-! ## Random source -/

/-- The byte `RandomByte()` returns (41_alu rule R133): the injected sequence's, where it has one, and the free draw otherwise. -/
def State.randomByte (s : State) : Byte :=
  (s.cfg.rngScript[s.rngDraws]?).getD (Config.freeRandomByte s.rngDraws)

/-- One random byte is consumed (R133). -/
def State.consumeRandom (s : State) : State := { s with rngDraws := s.rngDraws + 1 }

/-! ## Executing one instruction -/

/-- The end of a step (R72): the working copy is committed, or it is discarded and the fault is taken. -/
def commit (s : State) (word : Word) : Except Raise State → Host.Outcome State Fault Refusal
  | .ok t => .next t
  | .error r => .next (s.takeFault (some word) r)

/-- Execute the rule `body` of instruction `i` on the working copy of `s` (R72): in the copy the fetch has advanced PC (R70), and the
word a fault records is the instruction's own, which is the word fetched (log 9). -/
def execute (i : Instr) (s : State) (body : State → Except Raise State) : Host.Outcome State Fault Refusal :=
  commit s (encode i) (body s.advance)

end Sys2Proof.Machine
end

