-- ==== Sys2Proof/Machine/Flags.lean ====
section
/-! DEFINITION. The flag computations: what 8XY4 to 8XYE leave in VF (10_state rule R22, 41_alu rule R132). The collision flag of DXYN is
the display's (Machine/Display.lean). -/

namespace Sys2Proof.Machine

/-- A flag as the value of VF: 1 or 0 (R22). -/
def flagByte (flag : Bool) : Byte := if flag then 1#8 else 0#8

/-- 8XY4: "the addition overflowed 8 bits" (R126). -/
def carryOut (x y : Byte) : Bool := decide (256 ≤ x.toNat + y.toNat)

/-- 8XY5, and 8XY7 with the operands exchanged: "no borrow occurred" (R127, R129). -/
def noBorrow (minuend subtrahend : Byte) : Bool := decide (subtrahend.toNat ≤ minuend.toNat)

/-- 8XY6: the low bit, which the shift drops (R128). -/
def lowBit (b : Byte) : Bool := b.getLsbD 0

/-- 8XYE: the high bit, which the shift drops (R130). -/
def highBit (b : Byte) : Bool := b.getLsbD 7

/-- Write a result to VX and then a flag to VF, "written last", so that with X = 15 the flag stays (R22). -/
def State.setResultAndFlag (s : State) (x : Reg) (result : Byte) (flag : Bool) : State :=
  (s.setV x result).setV VF (flagByte flag)

end Sys2Proof.Machine
end

