-- ==== Sys2Proof/Machine/Operands.lean ====
section
/-! DEFINITION. The operand forms: the shift source, the computed addresses, the key a register names, the digits of a byte and the
registers a block instruction moves. -/

namespace Sys2Proof.Machine

/-- The source operand of 8XY6 and 8XYE (41_alu rule R131). -/
def State.shiftSource (s : State) (x y : Reg) : Byte :=
  match s.cfg.shiftSource with
  | .vx => s.getV x
  | .vy => s.getV y

/-- The target of BNNN, NNN + V0 on natural numbers (40_control_flow rule R103). -/
def State.offsetTarget (s : State) (nnn : Addr12) : Nat := nnn.toNat + (s.getV 0x0#4).toNat

/-- I + VX on natural numbers (42_index_memory rule R141). -/
def State.indexSum (s : State) (x : Reg) : Nat := s.i.toNat + (s.getV x).toNat

/-- FONT_BASE + 5 * VX, all 8 bits of VX (42_index_memory rule R142). -/
def State.glyphAddress (s : State) (x : Reg) : Nat := fontBase + 5 * (s.getV x).toNat

/-- KeyOf (44_keypad_timers rule R171): the state of the key a register value names, or InvalidKeyIndex. -/
def State.keyOf (s : State) (value : Byte) : Except Raise Bool :=
  if 16 ≤ value.toNat then .error (.invalidKeyIndex value) else .ok (s.key (value.setWidth 4))

/-- The decimal digits of a byte: hundreds, tens, units (42_index_memory rule R143). -/
def bcdDigits (b : Byte) : List Byte :=
  [BitVec.ofNat 8 (b.toNat / 100), BitVec.ofNat 8 (b.toNat / 10 % 10), BitVec.ofNat 8 (b.toNat % 10)]

/-- V0 to VX, in ascending order (42_index_memory rule R144). -/
def State.regsUpTo (s : State) (x : Reg) : List Byte :=
  (List.range (x.toNat + 1)).map fun k => s.getV (BitVec.ofNat 4 k)

/-- Load the first `n` registers from the bytes at `base`, in ascending order (42_index_memory rule R145). -/
def State.loadFrom (s : State) (base : Nat) : Nat → State
  | 0 => s
  | n + 1 => (s.loadFrom base n).setV (BitVec.ofNat 4 n) (s.readByte (base + n))

end Sys2Proof.Machine
end

