-- ==== Sys2Proof/Machine/Alu.lean ====
section
/-! DEFINITION. Register loads, arithmetic, logic, shifts and the random byte (41_alu rules R120 to R134). Operands are read before a
register is written, and VF as a flag is written last (10_state rule R22). -/

namespace Sys2Proof.Machine

/-- 6XNN LD VX, NN (R120). -/
def execLdByte (x : Reg) (nn : Byte) (s : State) : Host.Outcome State Fault Refusal :=
  execute (.ldByte x nn) s fun t => .ok (t.setV x nn)

/-- 7XNN ADD VX, NN (R121): modulo 256, no flag. -/
def execAddByte (x : Reg) (nn : Byte) (s : State) : Host.Outcome State Fault Refusal :=
  execute (.addByte x nn) s fun t => .ok (t.setV x (t.getV x + nn))

/-- 8XY0 LD VX, VY (R122). -/
def execLdReg (x y : Reg) (s : State) : Host.Outcome State Fault Refusal :=
  execute (.ldReg x y) s fun t => .ok (t.setV x (t.getV y))

/-- 8XY1 OR VX, VY (R123). -/
def execOrReg (x y : Reg) (s : State) : Host.Outcome State Fault Refusal :=
  execute (.orReg x y) s fun t => .ok (t.setV x (t.getV x ||| t.getV y))

/-- 8XY2 AND VX, VY (R124). -/
def execAndReg (x y : Reg) (s : State) : Host.Outcome State Fault Refusal :=
  execute (.andReg x y) s fun t => .ok (t.setV x (t.getV x &&& t.getV y))

/-- 8XY3 XOR VX, VY (R125). -/
def execXorReg (x y : Reg) (s : State) : Host.Outcome State Fault Refusal :=
  execute (.xorReg x y) s fun t => .ok (t.setV x (t.getV x ^^^ t.getV y))

/-- 8XY4 ADD VX, VY (R126). -/
def execAddReg (x y : Reg) (s : State) : Host.Outcome State Fault Refusal :=
  execute (.addReg x y) s fun t =>
    .ok (t.setResultAndFlag x (t.getV x + t.getV y) (carryOut (t.getV x) (t.getV y)))

/-- 8XY5 SUB VX, VY (R127). -/
def execSub (x y : Reg) (s : State) : Host.Outcome State Fault Refusal :=
  execute (.sub x y) s fun t =>
    .ok (t.setResultAndFlag x (t.getV x - t.getV y) (noBorrow (t.getV x) (t.getV y)))

/-- 8XY6 SHR VX {, VY} (R128). -/
def execShr (x y : Reg) (s : State) : Host.Outcome State Fault Refusal :=
  execute (.shr x y) s fun t =>
    .ok (t.setResultAndFlag x (t.shiftSource x y >>> 1) (lowBit (t.shiftSource x y)))

/-- 8XY7 SUBN VX, VY (R129). -/
def execSubn (x y : Reg) (s : State) : Host.Outcome State Fault Refusal :=
  execute (.subn x y) s fun t =>
    .ok (t.setResultAndFlag x (t.getV y - t.getV x) (noBorrow (t.getV y) (t.getV x)))

/-- 8XYE SHL VX {, VY} (R130). -/
def execShl (x y : Reg) (s : State) : Host.Outcome State Fault Refusal :=
  execute (.shl x y) s fun t =>
    .ok (t.setResultAndFlag x (t.shiftSource x y <<< 1) (highBit (t.shiftSource x y)))

/-- CXNN RND VX, NN (R134): one random byte is consumed whatever NN is (R133). -/
def execRnd (x : Reg) (nn : Byte) (s : State) : Host.Outcome State Fault Refusal :=
  execute (.rnd x nn) s fun t => .ok (t.consumeRandom.setV x (t.randomByte &&& nn))

end Sys2Proof.Machine
end

