-- ==== Sys2Proof/Machine/ControlFlow.lean ====
section
/-! DEFINITION. Control flow: returns, jumps, calls and skips on registers (40_control_flow rules R100 to R108). In each body `t` is the
working copy, whose PC is a + 2. -/

namespace Sys2Proof.Machine

/-- 00EE RET (R100). -/
def execRet (s : State) : Host.Outcome State Fault Refusal :=
  execute .ret s fun t =>
    match t.pop with
    | .error r => .error r
    | .ok (a, u) => .ok (u.jump a)

/-- 1NNN JP NNN (R101). -/
def execJp (nnn : Addr12) (s : State) : Host.Outcome State Fault Refusal :=
  execute (.jp nnn) s fun t => .ok (t.jump (zext16 nnn))

/-- 2NNN CALL NNN (R102): what is pushed is a + 2. -/
def execCall (nnn : Addr12) (s : State) : Host.Outcome State Fault Refusal :=
  execute (.call nnn) s fun t =>
    match t.push t.pc with
    | .error r => .error r
    | .ok u => .ok (u.jump (zext16 nnn))

/-- BNNN JP V0, NNN (R103). -/
def execJpV0 (nnn : Addr12) (s : State) : Host.Outcome State Fault Refusal :=
  execute (.jpV0 nnn) s fun t =>
    match checkAddress (t.offsetTarget nnn) with
    | .error r => .error r
    | .ok a => .ok (t.jump a)

/-- 3XNN SE VX, NN (R105). -/
def execSeByte (x : Reg) (nn : Byte) (s : State) : Host.Outcome State Fault Refusal :=
  execute (.seByte x nn) s fun t => .ok (t.skipIf (t.getV x == nn))

/-- 4XNN SNE VX, NN (R106). -/
def execSneByte (x : Reg) (nn : Byte) (s : State) : Host.Outcome State Fault Refusal :=
  execute (.sneByte x nn) s fun t => .ok (t.skipIf (t.getV x != nn))

/-- 5XY0 SE VX, VY (R107). -/
def execSeReg (x y : Reg) (s : State) : Host.Outcome State Fault Refusal :=
  execute (.seReg x y) s fun t => .ok (t.skipIf (t.getV x == t.getV y))

/-- 9XY0 SNE VX, VY (R108). -/
def execSneReg (x y : Reg) (s : State) : Host.Outcome State Fault Refusal :=
  execute (.sneReg x y) s fun t => .ok (t.skipIf (t.getV x != t.getV y))

end Sys2Proof.Machine
end

