-- ==== Sys2Proof/Machine/Display.lean ====
section
/-! DEFINITION. The display (10_state rule R32) and the two instructions that write it (43_display rules R160 to R163). -/

namespace Sys2Proof.Machine

/-- A display, as State holds it. -/
abbrev Screen := Vector (BitVec 64) 32

/-- `FB[col, row]`, for col below 64 and row below 32 (R12, R32); off outside the display. -/
def Screen.pixel (f : Screen) (col row : Nat) : Bool :=
  if h : row < 32 then f[row].getLsbD col else false

/-- `FB[col, row] <- FB[col, row] ^ 1`, for col below 64 and row below 32; nothing outside the display. -/
def Screen.flip (f : Screen) (col row : Nat) : Screen :=
  if h : row < 32 then f.set row (f[row] ^^^ (1#64 <<< col)) else f

/-- Replace the display. -/
def State.setScreen (s : State) (f : Screen) : State := { s with fb := f }

/-- `FB[col, row]` of a state. -/
def State.pixel (s : State) (col row : Nat) : Bool := Screen.pixel s.fb col row

/-- Where bit `b` of sprite row `r` of a sprite at (ox, oy) falls: with `clip` nowhere once past an edge (R161), with `wrap` at the
column mod 64 and the row mod 32 (R162). -/
def spritePlace (edge : SpriteEdge) (ox oy r b : Nat) : Option (Nat × Nat) :=
  match edge with
  | .clip => if oy + r < displayH ∧ ox + b < displayW then some (ox + b, oy + r) else none
  | .wrap => some ((ox + b) % displayW, (oy + r) % displayH)

/-- A display being drawn on, and whether a lit pixel has been turned off. -/
structure Canvas where
  screen : Screen
  collision : Bool
  deriving DecidableEq, Repr

/-- XOR one sprite bit into its place (R161): only a 1 bit acts, and on a lit pixel it collides. -/
def Canvas.plot (c : Canvas) (bit : Bool) : Option (Nat × Nat) → Canvas
  | none => c
  | some (col, row) =>
    if bit then { screen := Screen.flip c.screen col row, collision := c.collision || Screen.pixel c.screen col row } else c

/-- Draw one sprite row, bit 7 of its byte first (R161). -/
def Canvas.plotRow (edge : SpriteEdge) (ox oy r : Nat) (byte : Byte) (c : Canvas) : Canvas :=
  (List.range 8).foldl (fun c b => c.plot (byte.getLsbD (7 - b)) (spritePlace edge ox oy r b)) c

/-- Draw the rows of a sprite in ascending order, `rowByte r` being the byte of row r (R161). A row past the bottom edge is clipped
whole, which is the rule's "stop: no further rows" (log 13). -/
def Canvas.plotSprite (edge : SpriteEdge) (ox oy : Nat) (rowByte : Nat → Byte) (n : Nat) (c : Canvas) : Canvas :=
  (List.range n).foldl (fun c r => c.plotRow edge ox oy r (rowByte r)) c

/-- The range check of DXYN: all N rows, whatever clipping would draw, and none when N = 0 (R161, D10). -/
def State.checkSprite (s : State) (n : Nibble) : Except Raise Unit :=
  if n = 0#4 then .ok () else checkRange s.i.toNat n.toNat

/-- The display and the collision after a sprite of `n` rows at (VX mod 64, VY mod 32), its bytes at I (R161, R162). -/
def State.drawn (s : State) (x y : Reg) (n : Nibble) : Canvas :=
  Canvas.plotSprite s.cfg.spriteEdge ((s.getV x).toNat % displayW) ((s.getV y).toNat % displayH)
    (fun r => s.readByte (s.i.toNat + r)) n.toNat { screen := s.fb, collision := false }

/-- 00E0 CLS (R160). -/
def execCls (s : State) : Host.Outcome State Fault Refusal :=
  execute .cls s fun t => .ok (t.setScreen (Vector.replicate 32 0#64))

/-- DXYN DRW VX, VY, N (R161, R162): the coordinates are read before VF is written, and the collision goes to VF. -/
def execDrw (x y : Reg) (n : Nibble) (s : State) : Host.Outcome State Fault Refusal :=
  execute (.drw x y n) s fun t =>
    match t.checkSprite n with
    | .error r => .error r
    | .ok () => .ok ((t.setScreen (t.drawn x y n).screen).setV VF (flagByte (t.drawn x y n).collision))

end Sys2Proof.Machine
end

