-- ==== Sys2Proof/Machine/IndexMemory.lean ====
section
/-! DEFINITION. The index register, the font address, BCD and block load and store (42_index_memory rules R140 to R145). The multi-byte
forms check their whole range before the first access (20_memory rule R58) and leave I alone. -/

namespace Sys2Proof.Machine

/-- ANNN LD I, NNN (R140). -/
def execLdI (nnn : Addr12) (s : State) : Host.Outcome State Fault Refusal :=
  execute (.ldI nnn) s fun t => .ok (t.setI (zext16 nnn))

/-- FX1E ADD I, VX (R141). -/
def execAddI (x : Reg) (s : State) : Host.Outcome State Fault Refusal :=
  execute (.addI x) s fun t =>
    match checkAddress (t.indexSum x) with
    | .error r => .error r
    | .ok a => .ok (t.setI a)

/-- FX29 LD F, VX (R142). The check is the rule's own; with FONT_BASE = 0x050 it never raises. -/
def execLdF (x : Reg) (s : State) : Host.Outcome State Fault Refusal :=
  execute (.ldF x) s fun t =>
    match checkAddress (t.glyphAddress x) with
    | .error r => .error r
    | .ok a => .ok (t.setI a)

/-- FX33 LD B, VX (R143). -/
def execLdB (x : Reg) (s : State) : Host.Outcome State Fault Refusal :=
  execute (.ldB x) s fun t =>
    match checkRange t.i.toNat 3 with
    | .error r => .error r
    | .ok () => .ok (t.writeBytes t.i.toNat (bcdDigits (t.getV x)))

/-- FX55 LD [I], VX (R144). -/
def execStoreRegs (x : Reg) (s : State) : Host.Outcome State Fault Refusal :=
  execute (.storeRegs x) s fun t =>
    match checkRange t.i.toNat (x.toNat + 1) with
    | .error r => .error r
    | .ok () => .ok (t.writeBytes t.i.toNat (t.regsUpTo x))

/-- FX65 LD VX, [I] (R145). -/
def execLoadRegs (x : Reg) (s : State) : Host.Outcome State Fault Refusal :=
  execute (.loadRegs x) s fun t =>
    match checkRange t.i.toNat (x.toNat + 1) with
    | .error r => .error r
    | .ok () => .ok (t.loadFrom t.i.toNat (x.toNat + 1))

end Sys2Proof.Machine
end

