-- ==== Sys2Proof/Machine/KeypadTimers.lean ====
section
/-! DEFINITION. The keypad and timer instructions (44_keypad_timers rules R170 to R178). -/

namespace Sys2Proof.Machine

/-- EX9E SKP VX (R173). -/
def execSkp (x : Reg) (s : State) : Host.Outcome State Fault Refusal :=
  execute (.skp x) s fun t =>
    match t.keyOf (t.getV x) with
    | .error r => .error r
    | .ok pressed => .ok (t.skipIf pressed)

/-- EXA1 SKNP VX (R174). -/
def execSknp (x : Reg) (s : State) : Host.Outcome State Fault Refusal :=
  execute (.sknp x) s fun t =>
    match t.keyOf (t.getV x) with
    | .error r => .error r
    | .ok pressed => .ok (t.skipIf (!pressed))

/-- FX0A LD VX, K (R175): with no key pressed PC goes back to the instruction, and the step completes. -/
def execLdVxK (x : Reg) (s : State) : Host.Outcome State Fault Refusal :=
  execute (.ldVxK x) s fun t =>
    match t.lowestKey with
    | none => .ok (t.jump (t.pc - 2))
    | some k => .ok (t.setV x (k.setWidth 8))

/-- FX07 LD VX, DT (R176). -/
def execLdVxDt (x : Reg) (s : State) : Host.Outcome State Fault Refusal :=
  execute (.ldVxDt x) s fun t => .ok (t.setV x t.dt)

/-- FX15 LD DT, VX (R177). -/
def execLdDtVx (x : Reg) (s : State) : Host.Outcome State Fault Refusal :=
  execute (.ldDtVx x) s fun t => .ok (t.setDt (t.getV x))

/-- FX18 LD ST, VX (R178). -/
def execLdStVx (x : Reg) (s : State) : Host.Outcome State Fault Refusal :=
  execute (.ldStVx x) s fun t => .ok (t.setSt (t.getV x))

end Sys2Proof.Machine
end

