-- ==== Sys2Proof/Machine/Fetch.lean ====
section
/-! DEFINITION. Fetching and decoding the instruction of a step (30_encoding rules R70, R74), and placing a word where the next step
fetches. -/

namespace Sys2Proof.Machine

/-- The word at PC, big-endian, or MemoryOutOfBounds with the lower of its addresses that is out of range (R70). -/
def State.fetch (s : State) : Except Raise Word :=
  match s.memRead s.pc.toNat with
  | .error r => .error r
  | .ok hi =>
    match s.memRead (s.pc.toNat + 1) with
    | .error r => .error r
    | .ok lo => .ok (wordOfBytes hi lo)

/-- The instruction of the step, or the state with the fault the fetch or the decode raised: a failed fetch records no word, a refused
word is recorded (R201, R202). -/
def State.fetchDecode (s : State) : Except State Instr :=
  match s.fetch with
  | .error r => .error (s.takeFault none r)
  | .ok w =>
    match decode w with
    | .error _ => .error (s.takeFault (some w) .unimplementedOpcode)
    | .ok i => .ok i

/-- Place a word at PC, big-endian (R51). -/
def State.placeWord (s : State) (w : Word) : State :=
  s.writeBytes s.pc.toNat [highByte w, lowByte w]

end Sys2Proof.Machine
end

