-- ==== Sys2Proof/Machine/Step.lean ====
section
/-! DEFINITION. One step (30_encoding rule R72): a STEP request to the core. -/

namespace Sys2Proof.Machine

/-- One step. A faulted core executes and changes nothing (60_exceptions rule R204); otherwise the word at PC is fetched and decoded,
and its instruction executed. What the STEP port answers is read from the state after the step (`stepAnswer`, R211). -/
def step (s : State) : Host.Outcome State Fault Refusal :=
  match s.fault with
  | some _ => .next s
  | none =>
    match s.fetchDecode with
    | .error t => .next t
    | .ok i => exec i s

/-- `s` with the opcode table's word `w` of `nbits` bits stored where the next step fetches its instruction: it stands for a LOAD of
that word's bytes (log 14). -/
def State.withFetchWord (s : State) (nbits w : Nat) : State := s.placeWord (tableWord nbits w)

end Sys2Proof.Machine
end

