-- ==== Sys2Proof/Machine/Ports.lean ====
section
/-! DEFINITION. The host's transaction ports (60_exceptions rules R210 to R218): TICK, KEY, FB, LOAD and STATUS beside STEP. -/

namespace Sys2Proof.Machine

/-- A timer's decrement, clamped at 0 (R212). -/
def tickTimer (t : Byte) : Byte := if t = 0#8 then 0#8 else t - 1#8

/-- TICK (R212). -/
def State.tick (s : State) : State := (s.setDt (tickTimer s.dt)).setSt (tickTimer s.st)

/-- What the STATUS port shows (R215). -/
structure Status where
  v : Vector Byte 16
  i : Word
  pc : Word
  stack : List Word
  dt : Byte
  st : Byte
  fault : Option FaultRecord
  soundOn : Bool
  deriving DecidableEq, Repr

/-- The response of a port (R210). -/
inductive Response where
  | ok
  /-- FAULT(code), of STEP. -/
  | fault (code : Nat)
  /-- Of KEY: the index names no key. -/
  | invalidKeyIndex
  /-- Of LOAD: the bytes do not fit. -/
  | romTooLarge
  /-- Of FB: the 2048 bits, row by row. -/
  | frame (bits : List Bool)
  /-- Of STATUS. -/
  | status (shown : Status)
  deriving DecidableEq, Repr

/-- A request of the host (R210). -/
inductive Request where
  | step
  | tick
  | key (index : Nat) (pressed : Bool)
  | fb
  | load (bytes : List Byte) (origin : Nat)
  | status
  deriving DecidableEq, Repr

/-- The number of the fault status register: 0 when it is None (R201). -/
def State.faultNumber (s : State) : Nat :=
  match s.fault with
  | none => 0
  | some r => r.code.number

/-- What STEP answers, from the state after the step: OK, or FAULT(code) when the step raised or the core was already faulted (R211). -/
def State.stepAnswer (s : State) : Response :=
  match s.fault with
  | none => .ok
  | some r => .fault r.code.number

/-- KEY (R213). -/
def State.setKey (s : State) (index : Nat) (pressed : Bool) : State × Response :=
  if h : index < 16 then ({ s with keys := s.keys.set index pressed }, .ok) else (s, .invalidKeyIndex)

/-- The bit of FB at index col + 64 * row (R214). -/
def State.frameBit (s : State) (k : Nat) : Bool := s.pixel (k % displayW) (k / displayW)

/-- FB (R214): 2048 bits, row by row. -/
def State.framebuffer (s : State) : List Bool := (List.range (displayW * displayH)).map s.frameBit

/-- LOAD (R216): the size check comes before any write, and only memory is written. -/
def State.load (s : State) (bytes : List Byte) (origin : Nat) : State × Response :=
  if memSize < origin + bytes.length then (s, .romTooLarge) else (s.writeBytes origin bytes, .ok)

/-- `sound_on = (ST != 0)` (R215). -/
def State.soundOn (s : State) : Bool := s.st != 0#8

/-- STATUS (R215). -/
def State.shown (s : State) : Status :=
  { v := s.v, i := s.i, pc := s.pc, stack := s.stack, dt := s.dt, st := s.st, fault := s.fault, soundOn := s.soundOn }

/-- Serve one request: the state after it and the response. Each is answered before the next starts (R210, R218). -/
def serve (s : State) : Request → Host.Outcome (State × Response) Fault Refusal
  | .step =>
    match step s with
    | .next t => .next (t, t.stepAnswer)
    | .fault r => .fault r
    | .refused r => .refused r
  | .tick => .next (s.tick, .ok)
  | .key index pressed => .next (s.setKey index pressed)
  | .fb => .next (s, .frame s.framebuffer)
  | .load bytes origin => .next (s.load bytes origin)
  | .status => .next (s, .status s.shown)

/-- Serve requests one at a time in the order of the list: any list is a host (R218). The responses are in the same order. -/
def serveAll (s : State) : List Request → Host.Outcome (State × List Response) Fault Refusal
  | [] => .next (s, [])
  | q :: qs =>
    match serve s q with
    | .fault r => .fault r
    | .refused r => .refused r
    | .next (t, a) =>
      match serveAll t qs with
      | .fault r => .fault r
      | .refused r => .refused r
      | .next (u, as) => .next (u, a :: as)

end Sys2Proof.Machine
end

