-- ==== Sys2Proof/Safety.lean ====
section
/-! DEFINITION. The terms claims use: what a step leaves unchanged, which instruction can raise which fault, the invariant of every
state a core can be in, and what a sprite covers. -/

namespace Sys2Proof.Machine

/-! ## Frames -/

/-- A part of the state an observer can read on its own: one register, one byte of memory, the display, and so on (R20). -/
inductive Part where
  | v (k : Reg)
  | i
  | pc
  | stack
  | dt
  | st
  | fb
  | keys
  | fault
  | cfg
  | rngDraws
  | mem (a : Nat)
  deriving DecidableEq, Repr

/-- The part reads the same in both states. -/
def Part.same (s t : State) : Part → Prop
  | .v k => t.getV k = s.getV k
  | .i => t.i = s.i
  | .pc => t.pc = s.pc
  | .stack => t.stack = s.stack
  | .dt => t.dt = s.dt
  | .st => t.st = s.st
  | .fb => t.fb = s.fb
  | .keys => t.keys = s.keys
  | .fault => t.fault = s.fault
  | .cfg => t.cfg = s.cfg
  | .rngDraws => t.rngDraws = s.rngDraws
  | .mem a => t.readByte a = s.readByte a

/-- From `s` to `t` nothing changes but the listed parts: every other register, every other byte of memory, and so on. -/
def OnlyChanges (s t : State) (parts : List Part) : Prop := ∀ p, p ∉ parts → p.same s t

/-- The bytes of memory at `base` to `base + n - 1`. -/
def bytesAt (base n : Nat) : List Part := (List.range n).map fun k => .mem (base + k)

/-- The general registers an instruction may write: its destination, V0 to VX for FX65, and VF where it is a side output (R21, R22). -/
def Instr.mayWrite : Instr → Reg → Bool
  | .ldByte x _, k | .addByte x _, k | .ldReg x _, k | .orReg x _, k | .andReg x _, k | .xorReg x _, k | .rnd x _, k
  | .ldVxDt x, k | .ldVxK x, k => k == x
  | .addReg x _, k | .sub x _, k | .shr x _, k | .subn x _, k | .shl x _, k => k == x || k == VF
  | .drw _ _ _, k => k == VF
  | .loadRegs x, k => decide (k.toNat ≤ x.toNat)
  | .cls, _ | .ret, _ | .jp _, _ | .call _, _ | .seByte _ _, _ | .sneByte _ _, _ | .seReg _ _, _ | .sneReg _ _, _ | .ldI _, _
  | .jpV0 _, _ | .skp _, _ | .sknp _, _ | .ldDtVx _, _ | .ldStVx _, _ | .addI _, _ | .ldF _, _ | .ldB _, _ | .storeRegs _, _ => false

/-! ## Faults -/

/-- The one kind of fault a decoded instruction can raise, if any (60_exceptions rule R202). -/
def Instr.faultKind : Instr → Option FaultCode
  | .ret => some .stackUnderflow
  | .call _ => some .stackOverflow
  | .jpV0 _ | .drw _ _ _ | .addI _ | .ldF _ | .ldB _ | .storeRegs _ | .loadRegs _ => some .memoryOutOfBounds
  | .skp _ | .sknp _ => some .invalidKeyIndex
  | .cls | .jp _ | .seByte _ _ | .sneByte _ _ | .seReg _ _ | .ldByte _ _ | .addByte _ _ | .ldReg _ _ | .orReg _ _
  | .andReg _ _ | .xorReg _ _ | .addReg _ _ | .sub _ _ | .shr _ _ | .subn _ _ | .shl _ _ | .sneReg _ _ | .ldI _
  | .rnd _ _ | .ldVxDt _ | .ldVxK _ | .ldDtVx _ | .ldStVx _ => none

/-- The state `s` with the fault status register set to a record that names its PC, and nothing else changed (R201, R203). -/
def State.withFault (s : State) (code : FaultCode) (word : Option Word) (addr : Option Nat) : State :=
  { s with fault := some { code := code, pc := s.pc, word := word, addr := addr } }

/-- The step raised `code`: the answer is `s` with the fault status register set and nothing else changed, whatever else the record
holds. -/
def Raises (o : Host.Outcome State Fault Refusal) (s : State) (code : FaultCode) : Prop :=
  ∃ r : FaultRecord, o = .next { s with fault := some r } ∧ r.code = code

/-- The shape of a fault record, row by row of R201: a refused word, or a failed fetch, or a word whose instruction raises that kind;
an address for MemoryOutOfBounds only, and out of range. -/
def FaultRecord.shapeOk (r : FaultRecord) : Bool :=
  match r.code, r.word, r.addr with
  | .unimplementedOpcode, some w, none => decide (decode w = .error (.unimplementedOpcode w))
  | .memoryOutOfBounds, none, some a => decide (memSize ≤ a)
  | code, some w, addr =>
    match decode w with
    | .error _ => false
    | .ok i => decide (Instr.faultKind i = some code) &&
        (match code, addr with
        | .memoryOutOfBounds, some a => decide (memSize ≤ a)
        | .memoryOutOfBounds, none => false
        | _, some _ => false
        | _, none => true)
  | _, none, _ => false

/-- No fault is set, or the record has its shape and names the PC, which no step has moved since (R203, R204). -/
def State.recordOk (s : State) : Bool :=
  match s.fault with
  | none => true
  | some r => decide (r.pc = s.pc) && r.shapeOk

/-- The stack holds at most STACK_LIMIT entries (R28). -/
def State.depthOk (s : State) : Bool :=
  match s.cfg.stackLimit with
  | .unbounded => true
  | .bounded entries => decide (s.stack.length ≤ entries)

/-- A core that runs: no step has raised a fault. -/
def State.running (s : State) : Prop := s.fault = none

/-- The invariant of a core: what holds after construction and what every step and every host transaction keeps. -/
structure Invariant (s : State) : Prop where
  /-- Memory is in its canonical form. -/
  memory : Memory.wf s.cfg s.mem = true
  /-- "I always holds a value below 4096" (R26). -/
  index : s.i.toNat < memSize
  /-- PC is at most 0x1002 (R24). -/
  pc : s.pc.toNat ≤ 0x1002
  /-- A return address is at most 0x1000 (R70, R102). -/
  returns : ∀ a ∈ s.stack, a.toNat ≤ 0x1000
  /-- The stack is within its limit (R28). -/
  depth : s.depthOk = true
  /-- The configuration is one R9 allows. -/
  config : s.cfg.wellFormed = true
  /-- The fault status register is None or a record of R201. -/
  record : s.recordOk = true

/-! ## Sprites -/

/-- Whether some 1 bit of the `n`-row sprite at I, drawn at (VX mod 64, VY mod 32), falls on the pixel (col, row): the drawn mask of
R163, by its definition and not by drawing. -/
def State.covers (s : State) (x y : Reg) (n : Nibble) (col row : Nat) : Prop :=
  ∃ r b, r < n.toNat ∧ b < 8 ∧ (s.readByte (s.i.toNat + r)).getLsbD (7 - b) = true ∧
    match s.cfg.spriteEdge with
    | .clip => (s.getV x).toNat % 64 + b = col ∧ (s.getV y).toNat % 32 + r = row
    | .wrap => ((s.getV x).toNat % 64 + b) % 64 = col ∧ ((s.getV y).toNat % 32 + r) % 32 = row

end Sys2Proof.Machine
end

