-- ==== Sys2Proof/Certificates/Slice0/Obligations.lean ====
section
/-! DEFINITION. The statements for the provers. An instruction's statement speaks of `exec i s` with `s` the state the step starts from,
so PC goes from a to a + 2 (30_encoding rules R70, R72); `StepRunsDecodedInstruction` carries it to `step`. -/

open Sys2Proof Sys2Proof.Machine

/-! ## Encoding -/

/-- Decoding the word of an instruction gives it back, and its two bytes are all the decoder takes (R71, R73, R78). -/
def Obligations.DecodeOfEncodeIsIdentity : Prop :=
  ∀ i : Instr, i.wellFormed = true →
    decode (encode i) = .ok i ∧
    ∀ rest, decodeBytes (highByte (encode i) :: lowByte (encode i) :: rest) = .ok (i, rest)

/-- A word that decodes is the word of the instruction it decodes to: no bit of it is dropped (R71, R73, R75). -/
def Obligations.EncodeOfDecodeIsIdentity : Prop :=
  ∀ (w : Word) (i : Instr), decode w = .ok i → encode i = w

/-- The decoder is the opcode map (R74, R75): a word decodes to an instruction of a row it matches, every matching row gives its
instruction, and a word of no row is refused with the word (R76). That the map is decoded strictly is the spec's decision D5. -/
def Obligations.DecodeFollowsOpcodeMap : Prop :=
  ∀ w : Word,
    (∀ i, decode w = .ok i → i.row ∈ opcodeMap ∧ w &&& i.row.mask = i.row.value) ∧
    (∀ r ∈ opcodeMap, w &&& r.mask = r.value → ∃ i, decode w = .ok i ∧ i.row = r) ∧
    ((∀ r ∈ opcodeMap, w &&& r.mask ≠ r.value) → decode w = .error (.unimplementedOpcode w))

/-- The map has 34 rows, and no two of them match the same word (R74, R75). -/
def Obligations.OpcodeRowsAreDisjoint : Prop :=
  opcodeMap.length = 34 ∧
  ∀ w : Word, ∀ r ∈ opcodeMap, ∀ r' ∈ opcodeMap, w &&& r.mask = r.value → w &&& r'.mask = r'.value → r = r'

/-- One word of each family, written out from the spec's encodings (R75, and the examples of the instruction rules). -/
def Obligations.SampleWordsDecode : Prop :=
  decode 0x00EE#16 = .ok .ret ∧ decode 0xB300#16 = .ok (.jpV0 0x300#12) ∧ decode 0x5120#16 = .ok (.seReg 1#4 2#4) ∧
  decode 0x8F24#16 = .ok (.addReg 0xF#4 2#4) ∧ decode 0x840E#16 = .ok (.shl 4#4 0#4) ∧ decode 0xC30F#16 = .ok (.rnd 3#4 0x0F#8) ∧
  decode 0xF255#16 = .ok (.storeRegs 2#4) ∧ decode 0xD125#16 = .ok (.drw 1#4 2#4 5#4) ∧ decode 0xE1A1#16 = .ok (.sknp 1#4) ∧
  decode 0xF50A#16 = .ok (.ldVxK 5#4)

/-- Which words are unrecognized, class by class (R76): in every class listed there exactly these, and none in the others. Strict decoding
is the spec's decision D5. -/
def Obligations.UnrecognizedWordsByClass : Prop :=
  ∀ w : Word, decode w = .error (.unimplementedOpcode w) ↔
    (opClass w = 0x0#4 ∧ w ≠ 0x00E0#16 ∧ w ≠ 0x00EE#16) ∨
    ((opClass w = 0x5#4 ∨ opClass w = 0x9#4) ∧ fieldN w ≠ 0#4) ∨
    (opClass w = 0x8#4 ∧ fieldN w ∈ [0x8#4, 0x9#4, 0xA#4, 0xB#4, 0xC#4, 0xD#4, 0xF#4]) ∨
    (opClass w = 0xE#4 ∧ fieldNN w ∉ [0x9E#8, 0xA1#8]) ∨
    (opClass w = 0xF#4 ∧ fieldNN w ∉ [0x07#8, 0x0A#8, 0x15#8, 0x18#8, 0x1E#8, 0x29#8, 0x33#8, 0x55#8, 0x65#8])

/-! ## The step -/

/-- A core with no fault whose two bytes at PC decode to an instruction steps to what `exec` answers for that instruction at that state:
nothing is added around it (R70, R71, R72). -/
def Obligations.StepRunsDecodedInstruction : Prop :=
  ∀ (s : State) (i : Instr), s.fault = none → s.pc.toNat + 1 < 4096 →
    decode (wordOfBytes (s.readByte s.pc.toNat) (s.readByte (s.pc.toNat + 1))) = .ok i →
    step s = exec i s

/-- A fetch past the end of memory faults with the lower address out of range and no word, and a word that no row matches faults with
that word. The records are the spec's decisions D4, D7 and D8. -/
def Obligations.StepFetchAndDecodeFaults : Prop :=
  ∀ s : State, s.fault = none →
    (4096 ≤ s.pc.toNat + 1 →
      step s = .next (s.withFault .memoryOutOfBounds none (some (max s.pc.toNat 4096)))) ∧
    (s.pc.toNat + 1 < 4096 → ∀ w, w = wordOfBytes (s.readByte s.pc.toNat) (s.readByte (s.pc.toNat + 1)) →
      decode w = .error (.unimplementedOpcode w) →
      step s = .next (s.withFault .unimplementedOpcode (some w) none))

/-- While a fault is set, a step executes nothing, changes nothing and answers FAULT(code) (the spec's decision D7). -/
def Obligations.StepWhileFaultedChangesNothing : Prop :=
  ∀ (s : State) (r : FaultRecord), s.fault = some r →
    step s = .next s ∧ serve s .step = .next (s, .fault r.code.number)

/-- Every step is answered, in every state: OK when no fault is set after it, FAULT with the code's number of 1 to 5 otherwise. That a
faulted core answers too is the spec's decision D7, and the numbers are D8. -/
def Obligations.EveryStepIsAnswered : Prop :=
  ∀ s : State, ∃ t, step s = .next t ∧
    (t.fault = none → serve s .step = .next (t, .ok)) ∧
    (∀ r, t.fault = some r → serve s .step = .next (t, .fault r.code.number) ∧ 1 ≤ r.code.number ∧ r.code.number ≤ 5)

/-- Faults are precise: a step that raises changes the fault status register and nothing else, and the record's pc is the address the
step fetched from (the spec's decision D7). -/
def Obligations.FaultEntryIsPrecise : Prop :=
  ∀ s t : State, s.fault = none → step s = .next t → t.fault ≠ none →
    ∃ code word addr, t = s.withFault code word addr

/-- An instruction raises only its own kind of fault, the record holds its word, and only MemoryOutOfBounds holds an address, which is
out of range. The record's fields are the spec's decisions D7 and D8. -/
def Obligations.InstructionsRaiseOnlyTheirFault : Prop :=
  ∀ (i : Instr) (s t : State) (r : FaultRecord), s.fault = none → exec i s = .next t → t.fault = some r →
    Instr.faultKind i = some r.code ∧ r.word = some (encode i) ∧ r.pc = s.pc ∧
    (r.addr ≠ none ↔ r.code = .memoryOutOfBounds) ∧ (∀ a, r.addr = some a → 4096 ≤ a)

/-! ## The invariant -/

/-- Construction with any parameters R9 allows, the default ones among them, meets the invariant. The values after construction are the
spec's decision D1. -/
def Obligations.ConstructionMeetsInvariant : Prop :=
  (∀ c : Config, c.wellFormed = true → Invariant (State.construct c)) ∧ Invariant State.reset

/-- Every step keeps the invariant: memory canonical, I below 4096, PC at most 0x1002, return addresses at most 0x1000, the stack within
STACK_LIMIT, the configuration legal, the fault record well-shaped. The bounds rest on the spec's decisions D3, D4 and D7. -/
def Obligations.StepKeepsInvariant : Prop :=
  ∀ s t : State, Invariant s → step s = .next t → Invariant t

/-- Whatever requests the host makes, in whatever order, the invariant stays. That requests are served one at a time is the spec's decision
D12; the invariant rests on D3, D4 and D7. -/
def Obligations.HostRequestsKeepInvariant : Prop :=
  ∀ (s : State) (qs : List Request) (t : State) (as : List Response),
    Invariant s → serveAll s qs = .next (t, as) → Invariant t

/-! ## Construction and configuration -/

/-- What the source states of construction: PC is 0x200, and memory is zero but for the font's 80 bytes at FONT_BASE. FONT_BASE = 0x050
is the spec's decision D2, and the font bytes are the parameter FONT_DATA. -/
def Obligations.ConstructionSetsPcAndMemory : Prop :=
  ∀ c : Config, (State.construct c).pc = 0x200#16 ∧
    (∀ k, (h : k < 80) → (State.construct c).readByte (0x050 + k) = c.fontData[k]) ∧
    (∀ a, a < 0x050 ∨ 0x0A0 ≤ a → (State.construct c).readByte a = 0#8)

/-- The reset values the spec decides (D1, D7): registers, I and timers 0, stack empty, display off, keys released, no fault; and the
configuration is the one given. -/
def Obligations.ConstructionClearsTheRest : Prop :=
  ∀ c : Config, (∀ k, (State.construct c).getV k = 0#8) ∧ (State.construct c).i = 0#16 ∧ (State.construct c).stack = [] ∧
    (State.construct c).dt = 0#8 ∧ (State.construct c).st = 0#8 ∧
    (∀ col row, (State.construct c).pixel col row = false) ∧ (∀ k, (State.construct c).key k = false) ∧
    (State.construct c).fault = none ∧ (State.construct c).cfg = c

/-- No step and no host request changes a parameter (R36). -/
def Obligations.ConfigurationNeverChanges : Prop :=
  ∀ (s t : State) (q : Request) (a : Response), serve s q = .next (t, a) → t.cfg = s.cfg

/-! ## Display instructions -/

/-- 00E0 CLS turns every pixel off and changes nothing else but PC (R160). -/
def Obligations.ClearDisplayResult : Prop :=
  ∀ s : State, encode .cls = 0x00E0#16 ∧
    ∃ t, exec .cls s = .next t ∧ (∀ col row, col < 64 → row < 32 → t.pixel col row = false) ∧
      t.pc = s.pc + 2 ∧ OnlyChanges s t [.pc, .fb]

/-- DXYN: each pixel the sprite covers is inverted and the others stay; VF is 1 when a covered pixel was lit and 0 otherwise; nothing
else changes but PC. It runs when N = 0 or all N rows are in memory, and faults otherwise, whatever clipping would draw. The read of the
coordinates before VF, the check of all rows and the meaning of wrap are the spec's decisions D10 and D13. -/
def Obligations.DrawSpriteResult : Prop :=
  ∀ (x y : Reg) (n : Nibble) (s : State),
    ((n = 0#4 ∨ s.i.toNat + n.toNat ≤ 4096) →
      ∃ t, exec (.drw x y n) s = .next t ∧
        (∀ col row, col < 64 → row < 32 →
          (t.pixel col row = true ↔ ¬ (s.pixel col row = true ↔ s.covers x y n col row))) ∧
        ((∃ col row, col < 64 ∧ row < 32 ∧ s.covers x y n col row ∧ s.pixel col row = true) → t.getV VF = 1#8) ∧
        ((∀ col row, col < 64 → row < 32 → s.covers x y n col row → s.pixel col row = false) → t.getV VF = 0#8) ∧
        t.pc = s.pc + 2 ∧ OnlyChanges s t [.pc, .fb, .v VF]) ∧
    (n ≠ 0#4 → 4096 < s.i.toNat + n.toNat →
      exec (.drw x y n) s =
        .next (s.withFault .memoryOutOfBounds (some (encode (.drw x y n))) (some (max s.i.toNat 4096))))

/-- The collision law (R161, and R163 as far as R161 bears it out). After a draw that runs, VF is 1 exactly when some pixel that was on is
off, and 0 otherwise, and the display is the one before with the covered pixels inverted. A second draw of the same sprite at the same
place restores the display, and it gives VF = 1 exactly when some covered pixel was off before the first draw. R163's last sentence says
so of every sprite with an on-screen 1 bit, which R161 does not give where all of them fell on lit pixels (assumption log 17). The coordinates of
DFYN and DXFN and the meaning of wrap are the spec's decisions D10 and D13. -/
def Obligations.CollisionLaw : Prop :=
  ∀ (x y : Reg) (n : Nibble) (s t : State), s.fault = none → exec (.drw x y n) s = .next t → t.fault = none →
    (t.getV VF = 1#8 ↔ ∃ col row, col < 64 ∧ row < 32 ∧ s.pixel col row = true ∧ t.pixel col row = false) ∧
    (t.getV VF = 1#8 ∨ t.getV VF = 0#8) ∧
    (∀ col row, col < 64 → row < 32 → (t.pixel col row ≠ s.pixel col row ↔ s.covers x y n col row)) ∧
    (∀ (x' y' : Reg) (u : State), (t.getV x').toNat % 64 = (s.getV x).toNat % 64 →
      (t.getV y').toNat % 32 = (s.getV y).toNat % 32 → exec (.drw x' y' n) t = .next u →
      (∀ col row, col < 64 → row < 32 → u.pixel col row = s.pixel col row) ∧
      (u.getV VF = 1#8 ↔ ∃ col row, col < 64 ∧ row < 32 ∧ s.covers x y n col row ∧ s.pixel col row = false))

/-! ## Control flow -/

/-- 00EE RET: the newest return address goes to PC and leaves the stack; on an empty stack StackUnderflow is raised and nothing else
changes (R100). The fault register is the spec's decision D7. -/
def Obligations.ReturnResult : Prop :=
  encode .ret = 0x00EE#16 ∧
  ∀ s : State,
    (∀ a rest, s.stack = a :: rest →
      ∃ t, exec .ret s = .next t ∧ t.pc = a ∧ t.stack = rest ∧ OnlyChanges s t [.pc, .stack]) ∧
    (s.stack = [] → Raises (exec .ret s) s .stackUnderflow)

/-- 1NNN JP NNN sets PC to NNN, odd or even, and changes nothing else (R101). -/
def Obligations.JumpResult : Prop :=
  ∀ (nnn : Addr12) (s : State), encode (.jp nnn) = 0x1#4 ++ nnn ∧
    ∃ t, exec (.jp nnn) s = .next t ∧ t.pc.toNat = nnn.toNat ∧ OnlyChanges s t [.pc]

/-- 2NNN CALL NNN pushes the address after the CALL and sets PC to NNN; when STACK_LIMIT is a number and the stack holds that many
entries it raises StackOverflow instead. The overflow is the spec's decision D3. -/
def Obligations.CallResult : Prop :=
  ∀ (nnn : Addr12) (s : State),
    (s.cfg.stackLimit ≠ .bounded s.stack.length →
      ∃ t, exec (.call nnn) s = .next t ∧ t.stack = (s.pc + 2) :: s.stack ∧ t.pc.toNat = nnn.toNat ∧
        OnlyChanges s t [.pc, .stack]) ∧
    (s.cfg.stackLimit = .bounded s.stack.length →
      exec (.call nnn) s = .next (s.withFault .stackOverflow (some (encode (.call nnn))) none))

/-- BNNN JP V0, NNN sets PC to NNN + V0 when that is an address, and raises MemoryOutOfBounds with it otherwise. The check is the spec's
decision D4. -/
def Obligations.JumpWithOffsetResult : Prop :=
  ∀ (nnn : Addr12) (s : State),
    (nnn.toNat + (s.getV 0#4).toNat < 4096 →
      ∃ t, exec (.jpV0 nnn) s = .next t ∧ t.pc.toNat = nnn.toNat + (s.getV 0#4).toNat ∧ OnlyChanges s t [.pc]) ∧
    (4096 ≤ nnn.toNat + (s.getV 0#4).toNat →
      exec (.jpV0 nnn) s =
        .next (s.withFault .memoryOutOfBounds (some (encode (.jpV0 nnn))) (some (nnn.toNat + (s.getV 0#4).toNat))))

/-- 3XNN and 4XNN skip one instruction exactly when VX equals, or differs from, NN, and change nothing but PC (R105, R106). -/
def Obligations.SkipOnByteResult : Prop :=
  ∀ (x : Reg) (nn : Byte) (s : State),
    encode (.seByte x nn) = 0x3#4 ++ x ++ nn ∧ encode (.sneByte x nn) = 0x4#4 ++ x ++ nn ∧
    (∃ t, exec (.seByte x nn) s = .next t ∧ t.pc = (if s.getV x = nn then s.pc + 4 else s.pc + 2) ∧ OnlyChanges s t [.pc]) ∧
    (∃ t, exec (.sneByte x nn) s = .next t ∧ t.pc = (if s.getV x = nn then s.pc + 2 else s.pc + 4) ∧ OnlyChanges s t [.pc])

/-- 5XY0 and 9XY0 skip one instruction exactly when VX and VY are equal, or differ, and change nothing but PC; with a last nibble other
than 0 the word is no instruction (R107, R108), which is the spec's decision D5. -/
def Obligations.SkipOnRegisterResult : Prop :=
  ∀ (x y : Reg) (s : State),
    encode (.seReg x y) = 0x5#4 ++ x ++ y ++ 0x0#4 ∧ encode (.sneReg x y) = 0x9#4 ++ x ++ y ++ 0x0#4 ∧
    (∀ n : Nibble, n ≠ 0#4 → ∀ op : Nibble, op = 0x5#4 ∨ op = 0x9#4 →
      decode (formatXYN op x y n) = .error (.unimplementedOpcode (formatXYN op x y n))) ∧
    (∃ t, exec (.seReg x y) s = .next t ∧ t.pc = (if s.getV x = s.getV y then s.pc + 4 else s.pc + 2) ∧ OnlyChanges s t [.pc]) ∧
    (∃ t, exec (.sneReg x y) s = .next t ∧ t.pc = (if s.getV x = s.getV y then s.pc + 2 else s.pc + 4) ∧ OnlyChanges s t [.pc])

/-! ## Loads, arithmetic and logic -/

/-- 6XNN LD VX, NN (R120). -/
def Obligations.LoadByteResult : Prop :=
  ∀ (x : Reg) (nn : Byte) (s : State), encode (.ldByte x nn) = 0x6#4 ++ x ++ nn ∧
    ∃ t, exec (.ldByte x nn) s = .next t ∧ t.getV x = nn ∧ t.pc = s.pc + 2 ∧ OnlyChanges s t [.pc, .v x]

/-- 7XNN ADD VX, NN: the sum modulo 256, with no flag, so VF changes only as the destination (R121). -/
def Obligations.AddByteResult : Prop :=
  ∀ (x : Reg) (nn : Byte) (s : State), encode (.addByte x nn) = 0x7#4 ++ x ++ nn ∧
    ∃ t, exec (.addByte x nn) s = .next t ∧ (t.getV x).toNat = ((s.getV x).toNat + nn.toNat) % 256 ∧
      t.pc = s.pc + 2 ∧ OnlyChanges s t [.pc, .v x]

/-- 8XY0, 8XY1, 8XY2 and 8XY3: copy, OR, AND and XOR, bit by bit, with no flag (R122 to R125). -/
def Obligations.CopyAndLogicResult : Prop :=
  ∀ (x y : Reg) (s : State),
    encode (.ldReg x y) = 0x8#4 ++ x ++ y ++ 0x0#4 ∧ encode (.orReg x y) = 0x8#4 ++ x ++ y ++ 0x1#4 ∧
    encode (.andReg x y) = 0x8#4 ++ x ++ y ++ 0x2#4 ∧ encode (.xorReg x y) = 0x8#4 ++ x ++ y ++ 0x3#4 ∧
    (∃ t, exec (.ldReg x y) s = .next t ∧ t.getV x = s.getV y ∧ t.pc = s.pc + 2 ∧ OnlyChanges s t [.pc, .v x]) ∧
    (∃ t, exec (.orReg x y) s = .next t ∧
      (∀ b, (t.getV x).getLsbD b = ((s.getV x).getLsbD b || (s.getV y).getLsbD b)) ∧
      t.pc = s.pc + 2 ∧ OnlyChanges s t [.pc, .v x]) ∧
    (∃ t, exec (.andReg x y) s = .next t ∧
      (∀ b, (t.getV x).getLsbD b = ((s.getV x).getLsbD b && (s.getV y).getLsbD b)) ∧
      t.pc = s.pc + 2 ∧ OnlyChanges s t [.pc, .v x]) ∧
    (∃ t, exec (.xorReg x y) s = .next t ∧
      (∀ b, (t.getV x).getLsbD b = ((s.getV x).getLsbD b ^^ (s.getV y).getLsbD b)) ∧
      t.pc = s.pc + 2 ∧ OnlyChanges s t [.pc, .v x])

/-- 8XY4 ADD VX, VY: the sum modulo 256 in VX and the carry in VF, the flag written last, so with X = 15 VF is the carry (R126). -/
def Obligations.AddWithCarryResult : Prop :=
  ∀ (x y : Reg) (s : State), encode (.addReg x y) = 0x8#4 ++ x ++ y ++ 0x4#4 ∧
    ∃ t, exec (.addReg x y) s = .next t ∧
      (x ≠ VF → (t.getV x).toNat = ((s.getV x).toNat + (s.getV y).toNat) % 256) ∧
      t.getV VF = (if (s.getV x).toNat + (s.getV y).toNat ≥ 256 then 1#8 else 0#8) ∧
      t.pc = s.pc + 2 ∧ OnlyChanges s t [.pc, .v x, .v VF]

/-- 8XY5 and 8XY7: the difference modulo 256 in VX and 1 in VF when there is no borrow, the flag written last (R127, R129). -/
def Obligations.SubtractResult : Prop :=
  ∀ (x y : Reg) (s : State),
    encode (.sub x y) = 0x8#4 ++ x ++ y ++ 0x5#4 ∧ encode (.subn x y) = 0x8#4 ++ x ++ y ++ 0x7#4 ∧
    (∃ t, exec (.sub x y) s = .next t ∧
      (x ≠ VF → ((t.getV x).toNat : Int) = (((s.getV x).toNat : Int) - (s.getV y).toNat) % 256) ∧
      t.getV VF = (if (s.getV x).toNat ≥ (s.getV y).toNat then 1#8 else 0#8) ∧
      t.pc = s.pc + 2 ∧ OnlyChanges s t [.pc, .v x, .v VF]) ∧
    (∃ t, exec (.subn x y) s = .next t ∧
      (x ≠ VF → ((t.getV x).toNat : Int) = (((s.getV y).toNat : Int) - (s.getV x).toNat) % 256) ∧
      t.getV VF = (if (s.getV y).toNat ≥ (s.getV x).toNat then 1#8 else 0#8) ∧
      t.pc = s.pc + 2 ∧ OnlyChanges s t [.pc, .v x, .v VF])

/-- 8XY6 and 8XYE: the source, VX or VY by SHIFT_SOURCE, is shifted by one into VX and the bit shifted out goes to VF, the flag written
last (R128, R130, R131). -/
def Obligations.ShiftResult : Prop :=
  ∀ (x y : Reg) (s : State) (src : Nat),
    src = (match s.cfg.shiftSource with | .vx => (s.getV x).toNat | .vy => (s.getV y).toNat) →
    encode (.shr x y) = 0x8#4 ++ x ++ y ++ 0x6#4 ∧ encode (.shl x y) = 0x8#4 ++ x ++ y ++ 0xE#4 ∧
    (∃ t, exec (.shr x y) s = .next t ∧ (x ≠ VF → (t.getV x).toNat = src / 2) ∧ (t.getV VF).toNat = src % 2 ∧
      t.pc = s.pc + 2 ∧ OnlyChanges s t [.pc, .v x, .v VF]) ∧
    (∃ t, exec (.shl x y) s = .next t ∧ (x ≠ VF → (t.getV x).toNat = src * 2 % 256) ∧ (t.getV VF).toNat = src / 128 ∧
      t.pc = s.pc + 2 ∧ OnlyChanges s t [.pc, .v x, .v VF])

/-- CXNN RND VX, NN: VX is the drawn byte AND NN, and one byte is consumed whatever NN is. The byte is the injected sequence's where it
has one (D17), and otherwise the free value of assumption log 1, of which the statement assumes nothing. -/
def Obligations.RandomResult : Prop :=
  ∀ (x : Reg) (nn : Byte) (s : State) (r : Byte),
    ((h : s.rngDraws < s.cfg.rngScript.length) → r = s.cfg.rngScript[s.rngDraws]) →
    (s.cfg.rngScript.length ≤ s.rngDraws → r = Config.freeRandomByte s.rngDraws) →
    ∃ t, exec (.rnd x nn) s = .next t ∧ (∀ b, (t.getV x).getLsbD b = (r.getLsbD b && nn.getLsbD b)) ∧
      t.rngDraws = s.rngDraws + 1 ∧ t.pc = s.pc + 2 ∧ OnlyChanges s t [.pc, .v x, .rngDraws]

/-! ## Index register and memory -/

/-- ANNN LD I, NNN (R140). -/
def Obligations.LoadIndexResult : Prop :=
  ∀ (nnn : Addr12) (s : State), encode (.ldI nnn) = 0xA#4 ++ nnn ∧
    ∃ t, exec (.ldI nnn) s = .next t ∧ t.i.toNat = nnn.toNat ∧ t.pc = s.pc + 2 ∧ OnlyChanges s t [.pc, .i]

/-- FX1E ADD I, VX: I + VX when that is an address, with no flag, and MemoryOutOfBounds with the sum otherwise. Raising it here is the
spec's decision D4. -/
def Obligations.AddToIndexResult : Prop :=
  ∀ (x : Reg) (s : State),
    (s.i.toNat + (s.getV x).toNat < 4096 →
      ∃ t, exec (.addI x) s = .next t ∧ t.i.toNat = s.i.toNat + (s.getV x).toNat ∧ t.pc = s.pc + 2 ∧ OnlyChanges s t [.pc, .i]) ∧
    (4096 ≤ s.i.toNat + (s.getV x).toNat →
      exec (.addI x) s =
        .next (s.withFault .memoryOutOfBounds (some (encode (.addI x))) (some (s.i.toNat + (s.getV x).toNat))))

/-- FX29 LD F, VX: I becomes FONT_BASE + 5 * VX for all 256 values of VX, and no value faults. FONT_BASE = 0x050 is the spec's decision
D2. -/
def Obligations.FontAddressResult : Prop :=
  ∀ (x : Reg) (s : State),
    ∃ t, exec (.ldF x) s = .next t ∧ t.i.toNat = 0x050 + 5 * (s.getV x).toNat ∧ t.pc = s.pc + 2 ∧ OnlyChanges s t [.pc, .i]

/-- FX33 LD B, VX stores the three decimal digits of VX at I, I + 1 and I + 2 and changes no other byte, register or flag; out of range it
raises MemoryOutOfBounds and writes no byte (R143). The check of the whole range is the spec's decision D4. -/
def Obligations.StoreDigitsResult : Prop :=
  ∀ (x : Reg) (s : State), encode (.ldB x) = 0xF#4 ++ x ++ 0x33#8 ∧
    (Memory.wf s.cfg s.mem = true → s.i.toNat + 2 < 4096 →
      ∃ t, exec (.ldB x) s = .next t ∧
        (t.readByte s.i.toNat).toNat = (s.getV x).toNat / 100 ∧
        (t.readByte (s.i.toNat + 1)).toNat = (s.getV x).toNat / 10 % 10 ∧
        (t.readByte (s.i.toNat + 2)).toNat = (s.getV x).toNat % 10 ∧
        t.pc = s.pc + 2 ∧ OnlyChanges s t (.pc :: bytesAt s.i.toNat 3)) ∧
    (4096 ≤ s.i.toNat + 2 → Raises (exec (.ldB x) s) s .memoryOutOfBounds)

/-- FX55 LD [I], VX stores V0 to VX at I to I + X and changes no other byte, register or flag; out of range it raises MemoryOutOfBounds
and writes no byte (R144). The check of the whole range is the spec's decision D4. -/
def Obligations.StoreRegistersResult : Prop :=
  ∀ (x : Reg) (s : State), encode (.storeRegs x) = 0xF#4 ++ x ++ 0x55#8 ∧
    (Memory.wf s.cfg s.mem = true → s.i.toNat + x.toNat < 4096 →
      ∃ t, exec (.storeRegs x) s = .next t ∧
        (∀ k : Reg, k.toNat ≤ x.toNat → t.readByte (s.i.toNat + k.toNat) = s.getV k) ∧
        t.pc = s.pc + 2 ∧ OnlyChanges s t (.pc :: bytesAt s.i.toNat (x.toNat + 1))) ∧
    (4096 ≤ s.i.toNat + x.toNat → Raises (exec (.storeRegs x) s) s .memoryOutOfBounds)

/-- FX65 LD VX, [I] loads V0 to VX from I to I + X and changes no other register and no byte; out of range it raises MemoryOutOfBounds
and writes no register (R145). The check of the whole range is the spec's decision D4. -/
def Obligations.LoadRegistersResult : Prop :=
  ∀ (x : Reg) (s : State), encode (.loadRegs x) = 0xF#4 ++ x ++ 0x65#8 ∧
    (s.i.toNat + x.toNat < 4096 →
      ∃ t, exec (.loadRegs x) s = .next t ∧
        (∀ k : Reg, k.toNat ≤ x.toNat → t.getV k = s.readByte (s.i.toNat + k.toNat)) ∧
        (∀ k : Reg, x.toNat < k.toNat → t.getV k = s.getV k) ∧
        t.pc = s.pc + 2 ∧ OnlyChanges s t (.pc :: (List.range (x.toNat + 1)).map fun k => .v (BitVec.ofNat 4 k))) ∧
    (4096 ≤ s.i.toNat + x.toNat → Raises (exec (.loadRegs x) s) s .memoryOutOfBounds)

/-! ## Keypad and timers -/

/-- EX9E and EXA1 skip one instruction exactly when the key VX names is pressed, or released; a VX of 16 or more names no key and raises
InvalidKeyIndex, which is the spec's decision D9. -/
def Obligations.SkipOnKeyResult : Prop :=
  ∀ (x : Reg) (s : State),
    (∀ k : Nibble, (s.getV x).toNat = k.toNat →
      (∃ t, exec (.skp x) s = .next t ∧ t.pc = (if s.key k = true then s.pc + 4 else s.pc + 2) ∧ OnlyChanges s t [.pc]) ∧
      (∃ t, exec (.sknp x) s = .next t ∧ t.pc = (if s.key k = true then s.pc + 2 else s.pc + 4) ∧ OnlyChanges s t [.pc])) ∧
    (16 ≤ (s.getV x).toNat →
      exec (.skp x) s = .next (s.withFault .invalidKeyIndex (some (encode (.skp x))) none) ∧
      exec (.sknp x) s = .next (s.withFault .invalidKeyIndex (some (encode (.sknp x))) none))

/-- FX0A LD VX, K: with no key pressed the step completes and leaves the whole state as it was, PC on the instruction; with keys pressed
VX is the lowest of them and PC goes on (R175). -/
def Obligations.WaitForKeyResult : Prop :=
  ∀ (x : Reg) (s : State), encode (.ldVxK x) = 0xF#4 ++ x ++ 0x0A#8 ∧
    ((∀ k, s.key k = false) → exec (.ldVxK x) s = .next s) ∧
    (∀ k, s.key k = true → (∀ j, s.key j = true → k.toNat ≤ j.toNat) →
      ∃ t, exec (.ldVxK x) s = .next t ∧ (t.getV x).toNat = k.toNat ∧ t.pc = s.pc + 2 ∧ OnlyChanges s t [.pc, .v x])

/-- FX07 reads the delay timer, FX15 and FX18 set the delay and the sound timer, and nothing else changes but PC (R176, R177, R178). -/
def Obligations.TimerInstructionsResult : Prop :=
  ∀ (x : Reg) (s : State),
    encode (.ldVxDt x) = 0xF#4 ++ x ++ 0x07#8 ∧ encode (.ldDtVx x) = 0xF#4 ++ x ++ 0x15#8 ∧
    encode (.ldStVx x) = 0xF#4 ++ x ++ 0x18#8 ∧
    (∃ t, exec (.ldVxDt x) s = .next t ∧ t.getV x = s.dt ∧ t.pc = s.pc + 2 ∧ OnlyChanges s t [.pc, .v x]) ∧
    (∃ t, exec (.ldDtVx x) s = .next t ∧ t.dt = s.getV x ∧ t.pc = s.pc + 2 ∧ OnlyChanges s t [.pc, .dt]) ∧
    (∃ t, exec (.ldStVx x) s = .next t ∧ t.st = s.getV x ∧ t.pc = s.pc + 2 ∧ OnlyChanges s t [.pc, .st])

/-! ## Host ports -/

/-- TICK decrements each timer by 1, clamped at 0, changes nothing else, answers OK and never fails, faulted core or not (R212). -/
def Obligations.TickResult : Prop :=
  ∀ s : State, ∃ t, serve s .tick = .next (t, .ok) ∧ t.dt.toNat = s.dt.toNat - 1 ∧ t.st.toNat = s.st.toNat - 1 ∧
    OnlyChanges s t [.dt, .st]

/-- KEY sets one key, or answers InvalidKeyIndex and changes nothing when the index is 16 or more; it never sets Fault. That a request is
served between steps is the spec's decision D11. -/
def Obligations.KeyPortResult : Prop :=
  ∀ (s : State) (index : Nat) (pressed : Bool),
    (index < 16 → ∃ t, serve s (.key index pressed) = .next (t, .ok) ∧
      (∀ k : Nibble, t.key k = if k.toNat = index then pressed else s.key k) ∧ OnlyChanges s t [.keys]) ∧
    (16 ≤ index → serve s (.key index pressed) = .next (s, .invalidKeyIndex))

/-- LOAD copies the bytes to the origin and changes nothing else when they fit, and answers RomTooLarge and writes nothing when they do
not. The check before any write, any origin and any time are the spec's decision D16. -/
def Obligations.LoadPortResult : Prop :=
  ∀ (s : State) (bytes : List Byte) (origin : Nat),
    (Memory.wf s.cfg s.mem = true → origin + bytes.length ≤ 4096 →
      ∃ t, serve s (.load bytes origin) = .next (t, .ok) ∧
        (∀ j, (h : j < bytes.length) → t.readByte (origin + j) = bytes[j]) ∧ OnlyChanges s t (bytesAt origin bytes.length)) ∧
    (4096 < origin + bytes.length → serve s (.load bytes origin) = .next (s, .romTooLarge))

/-- FB answers 2048 bits, the pixel (col, row) at index col + 64 * row, and STATUS shows the registers, the stack, the timers, the fault
register and sound_on; both change nothing. STATUS and sound_on are the spec's decisions D20 and D21. -/
def Obligations.ReadPortsShowTheState : Prop :=
  ∀ s : State,
    (∃ bits : List Bool, serve s .fb = .next (s, .frame bits) ∧ bits.length = 2048 ∧
      ∀ col row, col < 64 → row < 32 → bits[col + 64 * row]? = some (s.pixel col row)) ∧
    (∃ shown : Status, serve s .status = .next (s, .status shown) ∧ shown.v = s.v ∧ shown.i = s.i ∧ shown.pc = s.pc ∧
      shown.stack = s.stack ∧ shown.dt = s.dt ∧ shown.st = s.st ∧ shown.fault = s.fault ∧
      (shown.soundOn = true ↔ s.st ≠ 0#8))

/-- A fault once set stays, whatever requests the host makes: only construction clears it (the spec's decision D7). -/
def Obligations.FaultIsSticky : Prop :=
  ∀ (s : State) (r : FaultRecord) (qs : List Request) (t : State) (as : List Response),
    s.fault = some r → serveAll s qs = .next (t, as) → t.fault = some r

/-! ## Whole-machine rules -/

/-- A step changes the display only by 00E0 or DXYN (R32, R164). -/
def Obligations.OnlyClearAndDrawChangeTheDisplay : Prop :=
  ∀ (i : Instr) (s t : State), exec i s = .next t → t.fb ≠ s.fb → i = .cls ∨ ∃ x y n, i = .drw x y n

/-- Only 2NNN pushes and only 00EE pops, one entry at a time at the newest end (R27). -/
def Obligations.OnlyCallAndReturnChangeTheStack : Prop :=
  ∀ (i : Instr) (s t : State), exec i s = .next t → t.stack ≠ s.stack →
    (∃ nnn, i = .call nnn ∧ ∃ a, t.stack = a :: s.stack) ∨ (i = .ret ∧ ∃ a, s.stack = a :: t.stack)

/-- No step decrements a timer: DT changes only by FX15 and ST only by FX18 (R172). No step changes a key (R33). A random byte is consumed
by every CXNN and by nothing else (R133). -/
def Obligations.TimersKeysAndRandomSource : Prop :=
  ∀ (i : Instr) (s t : State), exec i s = .next t →
    (t.dt ≠ s.dt → ∃ x, i = .ldDtVx x) ∧ (t.st ≠ s.st → ∃ x, i = .ldStVx x) ∧ t.keys = s.keys ∧
    (∀ x nn, i = .rnd x nn → t.rngDraws = s.rngDraws + 1) ∧ ((∀ x nn, i ≠ .rnd x nn) → t.rngDraws = s.rngDraws)

/-- A step changes a general register only if the instruction writes it: as its destination, as one of V0 to VX of FX65, or as the flag
(R21, R22). -/
def Obligations.RegistersChangeOnlyAsDestinations : Prop :=
  ∀ (i : Instr) (s t : State) (k : Reg), exec i s = .next t → t.getV k ≠ s.getV k → Instr.mayWrite i k = true

/-- A step changes a byte of memory only by FX33 at I to I + 2 or by FX55 at I to I + X (R30, R50). -/
def Obligations.MemoryChangesOnlyByStores : Prop :=
  ∀ (i : Instr) (s t : State) (a : Nat), exec i s = .next t → t.readByte a ≠ s.readByte a →
    a < 4096 ∧ ((∃ x, i = .ldB x ∧ s.i.toNat ≤ a ∧ a ≤ s.i.toNat + 2) ∨
      (∃ x, i = .storeRegs x ∧ s.i.toNat ≤ a ∧ a ≤ s.i.toNat + x.toNat))

/-- A CALL and then a RET go on at the instruction after the CALL with the stack as before (R100, R102). -/
def Obligations.CallThenReturnResumes : Prop :=
  ∀ (nnn : Addr12) (s t u : State), s.fault = none → exec (.call nnn) s = .next t → t.fault = none → exec .ret t = .next u →
    u.pc = s.pc + 2 ∧ OnlyChanges s u [.pc]

/-- Storing V0 to VX and then loading V0 to VX with the same I gives every register back, from any state between whose memory and I are
those the store left (R144, R145). -/
def Obligations.StoreThenLoadRestoresRegisters : Prop :=
  ∀ (x : Reg) (s t u w : State), Memory.wf s.cfg s.mem = true → s.fault = none → exec (.storeRegs x) s = .next t → t.fault = none →
    u.fault = none → u.i = t.i → (∀ a, u.readByte a = t.readByte a) → exec (.loadRegs x) u = .next w →
    ∀ k : Reg, k.toNat ≤ x.toNat → w.getV k = s.getV k

/-- A store is seen by a later fetch with no fence: once FX55 has stored Vk and Vk+1 where PC points, they are the word fetched, and the
step runs the instruction they spell (R64). -/
def Obligations.StoredBytesAreExecuted : Prop :=
  ∀ (x k : Reg) (s t : State) (i : Instr), Memory.wf s.cfg s.mem = true → s.fault = none →
    exec (.storeRegs x) s = .next t → t.fault = none → k.toNat + 1 ≤ x.toNat → t.pc.toNat = s.i.toNat + k.toNat →
    decode (wordOfBytes (s.getV k) (s.getV (k + 1))) = .ok i → step t = exec i t

/-- The states in which steps change nothing (R243): a jump to itself, and FX0A with no key pressed. -/
def Obligations.SelfLoopsAreFixedPoints : Prop :=
  ∀ (s : State) (i : Instr), s.fault = none → s.pc.toNat + 1 < 4096 →
    decode (wordOfBytes (s.readByte s.pc.toNat) (s.readByte (s.pc.toNat + 1))) = .ok i →
    (∀ nnn, i = .jp nnn → nnn.toNat = s.pc.toNat → step s = .next s) ∧
    (∀ x, i = .ldVxK x → (∀ k, s.key k = false) → step s = .next s)

/-- A tick before or after an instruction gives the same state, unless the instruction reads or writes a timer (R172, R247). -/
def Obligations.TickCommutesWithOtherInstructions : Prop :=
  ∀ (i : Instr) (s t : State), (∀ x, i ≠ .ldVxDt x) → (∀ x, i ≠ .ldDtVx x) → (∀ x, i ≠ .ldStVx x) →
    exec i s = .next t → exec i s.tick = .next t.tick

/-- A word loaded at 0x200 after construction is what the first step runs: its two bytes, high byte first, through LOAD (R216, R244). -/
def Obligations.LoadedProgramRuns : Prop :=
  ∀ (c : Config) (w : Word) (i : Instr) (rest : List Byte), decode w = .ok i → rest.length ≤ 3582 →
    ∃ t, serve (State.construct c) (.load (highByte w :: lowByte w :: rest) 0x200) = .next (t, .ok) ∧ step t = exec i t ∧
      OnlyChanges (State.construct c) t (bytesAt 0x200 (rest.length + 2))
end

