-- ==== Sys2Proof/Laws/Decode.lean ====
section
/-! SUPPORT. The fields of the words the three formats build (30_encoding rules R71, R73), and a word from its fields. -/

namespace Sys2Proof

/-- An append as a number. -/
theorem toNat_append_eq {m n : Nat} (a : BitVec m) (b : BitVec n) : (a ++ b).toNat = a.toNat * 2 ^ n + b.toNat := by
  rw [BitVec.toNat_append, ← Nat.shiftLeft_add_eq_or_of_lt b.isLt, Nat.shiftLeft_eq]

/-- The low bits of a word from a bit on, as a number. -/
theorem toNat_field {m : Nat} (w : BitVec m) (start len : Nat) :
    (w.extractLsb' start len).toNat = w.toNat / 2 ^ start % 2 ^ len := by
  simp [BitVec.extractLsb'_toNat, Nat.shiftRight_eq_div_pow]

theorem formatA_toNat (op : Nibble) (nnn : Addr12) : (formatA op nnn).toNat = op.toNat * 4096 + nnn.toNat :=
  toNat_append_eq op nnn

theorem formatXB_toNat (op : Nibble) (x : Reg) (nn : Byte) :
    (formatXB op x nn).toNat = op.toNat * 4096 + x.toNat * 256 + nn.toNat := by
  refine (toNat_append_eq (op ++ x) nn).trans ?_
  rw [toNat_append_eq op x]
  simp only [Nat.reducePow]
  omega

theorem formatXYN_toNat (op : Nibble) (x y : Reg) (n : Nibble) :
    (formatXYN op x y n).toNat = op.toNat * 4096 + x.toNat * 256 + y.toNat * 16 + n.toNat := by
  refine (toNat_append_eq (op ++ x ++ y) n).trans ?_
  rw [toNat_append_eq (op ++ x) y, toNat_append_eq op x]
  simp only [Nat.reducePow]
  omega

section
variable (op : Nibble) (x y : Reg) (n : Nibble) (nn : Byte) (nnn : Addr12)

@[simp] theorem opClass_formatA : opClass (formatA op nnn) = op := by
  apply BitVec.eq_of_toNat_eq
  have := op.isLt; have := nnn.isLt
  simp only [opClass, toNat_field, formatA_toNat]; omega

@[simp] theorem fieldNNN_formatA : fieldNNN (formatA op nnn) = nnn := by
  apply BitVec.eq_of_toNat_eq
  have := op.isLt; have := nnn.isLt
  simp only [fieldNNN, toNat_field, formatA_toNat]; omega

@[simp] theorem opClass_formatXB : opClass (formatXB op x nn) = op := by
  apply BitVec.eq_of_toNat_eq
  have := op.isLt; have := x.isLt; have := nn.isLt
  simp only [opClass, toNat_field, formatXB_toNat]; omega

@[simp] theorem fieldX_formatXB : fieldX (formatXB op x nn) = x := by
  apply BitVec.eq_of_toNat_eq
  have := op.isLt; have := x.isLt; have := nn.isLt
  simp only [fieldX, toNat_field, formatXB_toNat]; omega

@[simp] theorem fieldNN_formatXB : fieldNN (formatXB op x nn) = nn := by
  apply BitVec.eq_of_toNat_eq
  have := op.isLt; have := x.isLt; have := nn.isLt
  simp only [fieldNN, toNat_field, formatXB_toNat]; omega

@[simp] theorem opClass_formatXYN : opClass (formatXYN op x y n) = op := by
  apply BitVec.eq_of_toNat_eq
  have := op.isLt; have := x.isLt; have := y.isLt; have := n.isLt
  simp only [opClass, toNat_field, formatXYN_toNat]; omega

@[simp] theorem fieldX_formatXYN : fieldX (formatXYN op x y n) = x := by
  apply BitVec.eq_of_toNat_eq
  have := op.isLt; have := x.isLt; have := y.isLt; have := n.isLt
  simp only [fieldX, toNat_field, formatXYN_toNat]; omega

@[simp] theorem fieldY_formatXYN : fieldY (formatXYN op x y n) = y := by
  apply BitVec.eq_of_toNat_eq
  have := op.isLt; have := x.isLt; have := y.isLt; have := n.isLt
  simp only [fieldY, toNat_field, formatXYN_toNat]; omega

@[simp] theorem fieldN_formatXYN : fieldN (formatXYN op x y n) = n := by
  apply BitVec.eq_of_toNat_eq
  have := op.isLt; have := x.isLt; have := y.isLt; have := n.isLt
  simp only [fieldN, toNat_field, formatXYN_toNat]; omega

end

/-- A word is its op-class and NNN. -/
theorem word_eq_formatA (w : Word) : w = formatA (opClass w) (fieldNNN w) := by
  apply BitVec.eq_of_toNat_eq
  have := w.isLt
  simp only [formatA_toNat, opClass, fieldNNN, toNat_field]; omega

/-- A word is its op-class, X and NN. -/
theorem word_eq_formatXB (w : Word) : w = formatXB (opClass w) (fieldX w) (fieldNN w) := by
  apply BitVec.eq_of_toNat_eq
  have := w.isLt
  simp only [formatXB_toNat, opClass, fieldX, fieldNN, toNat_field]; omega

/-- A word is its op-class, X, Y and N. -/
theorem word_eq_formatXYN (w : Word) : w = formatXYN (opClass w) (fieldX w) (fieldY w) (fieldN w) := by
  apply BitVec.eq_of_toNat_eq
  have := w.isLt
  simp only [formatXYN_toNat, opClass, fieldX, fieldY, fieldN, toNat_field]; omega

/-- Taking a word apart into its two bytes and putting it together again (20_memory rule R51). -/
@[simp] theorem wordOfBytes_bytes (w : Word) : wordOfBytes (highByte w) (lowByte w) = w := by
  apply BitVec.eq_of_toNat_eq
  have := w.isLt
  simp only [wordOfBytes, highByte, lowByte]
  rw [show (w.extractLsb' 8 8 ++ w.extractLsb' 0 8 : BitVec 16).toNat = _ from toNat_append_eq _ _]
  simp only [toNat_field]; omega

end Sys2Proof
end

