-- ==== Sys2Proof/Laws/State.lean ====
section
/-! SUPPORT. For each update of State, what each field and each accessor reads after it. -/

namespace Sys2Proof.Machine

/-! ## setV -/

@[simp] theorem State.setV_i (s : State) (x : Reg) (b : Byte) : (s.setV x b).i = s.i := rfl
@[simp] theorem State.setV_pc (s : State) (x : Reg) (b : Byte) : (s.setV x b).pc = s.pc := rfl
@[simp] theorem State.setV_stack (s : State) (x : Reg) (b : Byte) : (s.setV x b).stack = s.stack := rfl
@[simp] theorem State.setV_dt (s : State) (x : Reg) (b : Byte) : (s.setV x b).dt = s.dt := rfl
@[simp] theorem State.setV_st (s : State) (x : Reg) (b : Byte) : (s.setV x b).st = s.st := rfl
@[simp] theorem State.setV_mem (s : State) (x : Reg) (b : Byte) : (s.setV x b).mem = s.mem := rfl
@[simp] theorem State.setV_fb (s : State) (x : Reg) (b : Byte) : (s.setV x b).fb = s.fb := rfl
@[simp] theorem State.setV_keys (s : State) (x : Reg) (b : Byte) : (s.setV x b).keys = s.keys := rfl
@[simp] theorem State.setV_fault (s : State) (x : Reg) (b : Byte) : (s.setV x b).fault = s.fault := rfl
@[simp] theorem State.setV_cfg (s : State) (x : Reg) (b : Byte) : (s.setV x b).cfg = s.cfg := rfl
@[simp] theorem State.setV_rngDraws (s : State) (x : Reg) (b : Byte) : (s.setV x b).rngDraws = s.rngDraws := rfl
@[simp] theorem State.setV_readByte (s : State) (x : Reg) (b : Byte) (c : Nat) : (s.setV x b).readByte c = s.readByte c := rfl
@[simp] theorem State.setV_pixel (s : State) (x : Reg) (b : Byte) (col row : Nat) : (s.setV x b).pixel col row = s.pixel col row := rfl
@[simp] theorem State.setV_key (s : State) (x : Reg) (b : Byte) (k : Nibble) : (s.setV x b).key k = s.key k := rfl

/-! ## setI -/

@[simp] theorem State.setI_v (s : State) (a : Word) : (s.setI a).v = s.v := rfl
@[simp] theorem State.setI_i (s : State) (a : Word) : (s.setI a).i = a := rfl
@[simp] theorem State.setI_pc (s : State) (a : Word) : (s.setI a).pc = s.pc := rfl
@[simp] theorem State.setI_stack (s : State) (a : Word) : (s.setI a).stack = s.stack := rfl
@[simp] theorem State.setI_dt (s : State) (a : Word) : (s.setI a).dt = s.dt := rfl
@[simp] theorem State.setI_st (s : State) (a : Word) : (s.setI a).st = s.st := rfl
@[simp] theorem State.setI_mem (s : State) (a : Word) : (s.setI a).mem = s.mem := rfl
@[simp] theorem State.setI_fb (s : State) (a : Word) : (s.setI a).fb = s.fb := rfl
@[simp] theorem State.setI_keys (s : State) (a : Word) : (s.setI a).keys = s.keys := rfl
@[simp] theorem State.setI_fault (s : State) (a : Word) : (s.setI a).fault = s.fault := rfl
@[simp] theorem State.setI_cfg (s : State) (a : Word) : (s.setI a).cfg = s.cfg := rfl
@[simp] theorem State.setI_rngDraws (s : State) (a : Word) : (s.setI a).rngDraws = s.rngDraws := rfl
@[simp] theorem State.setI_getV (s : State) (a : Word) (k : Reg) : (s.setI a).getV k = s.getV k := rfl
@[simp] theorem State.setI_readByte (s : State) (a : Word) (c : Nat) : (s.setI a).readByte c = s.readByte c := rfl
@[simp] theorem State.setI_pixel (s : State) (a : Word) (col row : Nat) : (s.setI a).pixel col row = s.pixel col row := rfl
@[simp] theorem State.setI_key (s : State) (a : Word) (k : Nibble) : (s.setI a).key k = s.key k := rfl

/-! ## setDt -/

@[simp] theorem State.setDt_v (s : State) (b : Byte) : (s.setDt b).v = s.v := rfl
@[simp] theorem State.setDt_i (s : State) (b : Byte) : (s.setDt b).i = s.i := rfl
@[simp] theorem State.setDt_pc (s : State) (b : Byte) : (s.setDt b).pc = s.pc := rfl
@[simp] theorem State.setDt_stack (s : State) (b : Byte) : (s.setDt b).stack = s.stack := rfl
@[simp] theorem State.setDt_dt (s : State) (b : Byte) : (s.setDt b).dt = b := rfl
@[simp] theorem State.setDt_st (s : State) (b : Byte) : (s.setDt b).st = s.st := rfl
@[simp] theorem State.setDt_mem (s : State) (b : Byte) : (s.setDt b).mem = s.mem := rfl
@[simp] theorem State.setDt_fb (s : State) (b : Byte) : (s.setDt b).fb = s.fb := rfl
@[simp] theorem State.setDt_keys (s : State) (b : Byte) : (s.setDt b).keys = s.keys := rfl
@[simp] theorem State.setDt_fault (s : State) (b : Byte) : (s.setDt b).fault = s.fault := rfl
@[simp] theorem State.setDt_cfg (s : State) (b : Byte) : (s.setDt b).cfg = s.cfg := rfl
@[simp] theorem State.setDt_rngDraws (s : State) (b : Byte) : (s.setDt b).rngDraws = s.rngDraws := rfl
@[simp] theorem State.setDt_getV (s : State) (b : Byte) (k : Reg) : (s.setDt b).getV k = s.getV k := rfl
@[simp] theorem State.setDt_readByte (s : State) (b : Byte) (c : Nat) : (s.setDt b).readByte c = s.readByte c := rfl
@[simp] theorem State.setDt_pixel (s : State) (b : Byte) (col row : Nat) : (s.setDt b).pixel col row = s.pixel col row := rfl
@[simp] theorem State.setDt_key (s : State) (b : Byte) (k : Nibble) : (s.setDt b).key k = s.key k := rfl

/-! ## setSt -/

@[simp] theorem State.setSt_v (s : State) (b : Byte) : (s.setSt b).v = s.v := rfl
@[simp] theorem State.setSt_i (s : State) (b : Byte) : (s.setSt b).i = s.i := rfl
@[simp] theorem State.setSt_pc (s : State) (b : Byte) : (s.setSt b).pc = s.pc := rfl
@[simp] theorem State.setSt_stack (s : State) (b : Byte) : (s.setSt b).stack = s.stack := rfl
@[simp] theorem State.setSt_dt (s : State) (b : Byte) : (s.setSt b).dt = s.dt := rfl
@[simp] theorem State.setSt_st (s : State) (b : Byte) : (s.setSt b).st = b := rfl
@[simp] theorem State.setSt_mem (s : State) (b : Byte) : (s.setSt b).mem = s.mem := rfl
@[simp] theorem State.setSt_fb (s : State) (b : Byte) : (s.setSt b).fb = s.fb := rfl
@[simp] theorem State.setSt_keys (s : State) (b : Byte) : (s.setSt b).keys = s.keys := rfl
@[simp] theorem State.setSt_fault (s : State) (b : Byte) : (s.setSt b).fault = s.fault := rfl
@[simp] theorem State.setSt_cfg (s : State) (b : Byte) : (s.setSt b).cfg = s.cfg := rfl
@[simp] theorem State.setSt_rngDraws (s : State) (b : Byte) : (s.setSt b).rngDraws = s.rngDraws := rfl
@[simp] theorem State.setSt_getV (s : State) (b : Byte) (k : Reg) : (s.setSt b).getV k = s.getV k := rfl
@[simp] theorem State.setSt_readByte (s : State) (b : Byte) (c : Nat) : (s.setSt b).readByte c = s.readByte c := rfl
@[simp] theorem State.setSt_pixel (s : State) (b : Byte) (col row : Nat) : (s.setSt b).pixel col row = s.pixel col row := rfl
@[simp] theorem State.setSt_key (s : State) (b : Byte) (k : Nibble) : (s.setSt b).key k = s.key k := rfl

/-! ## advance -/

@[simp] theorem State.advance_v (s : State) : (s.advance).v = s.v := rfl
@[simp] theorem State.advance_i (s : State) : (s.advance).i = s.i := rfl
@[simp] theorem State.advance_pc (s : State) : (s.advance).pc = s.pc + 2 := rfl
@[simp] theorem State.advance_stack (s : State) : (s.advance).stack = s.stack := rfl
@[simp] theorem State.advance_dt (s : State) : (s.advance).dt = s.dt := rfl
@[simp] theorem State.advance_st (s : State) : (s.advance).st = s.st := rfl
@[simp] theorem State.advance_mem (s : State) : (s.advance).mem = s.mem := rfl
@[simp] theorem State.advance_fb (s : State) : (s.advance).fb = s.fb := rfl
@[simp] theorem State.advance_keys (s : State) : (s.advance).keys = s.keys := rfl
@[simp] theorem State.advance_fault (s : State) : (s.advance).fault = s.fault := rfl
@[simp] theorem State.advance_cfg (s : State) : (s.advance).cfg = s.cfg := rfl
@[simp] theorem State.advance_rngDraws (s : State) : (s.advance).rngDraws = s.rngDraws := rfl
@[simp] theorem State.advance_getV (s : State) (k : Reg) : (s.advance).getV k = s.getV k := rfl
@[simp] theorem State.advance_readByte (s : State) (c : Nat) : (s.advance).readByte c = s.readByte c := rfl
@[simp] theorem State.advance_pixel (s : State) (col row : Nat) : (s.advance).pixel col row = s.pixel col row := rfl
@[simp] theorem State.advance_key (s : State) (k : Nibble) : (s.advance).key k = s.key k := rfl

/-! ## jump -/

@[simp] theorem State.jump_v (s : State) (a : Word) : (s.jump a).v = s.v := rfl
@[simp] theorem State.jump_i (s : State) (a : Word) : (s.jump a).i = s.i := rfl
@[simp] theorem State.jump_pc (s : State) (a : Word) : (s.jump a).pc = a := rfl
@[simp] theorem State.jump_stack (s : State) (a : Word) : (s.jump a).stack = s.stack := rfl
@[simp] theorem State.jump_dt (s : State) (a : Word) : (s.jump a).dt = s.dt := rfl
@[simp] theorem State.jump_st (s : State) (a : Word) : (s.jump a).st = s.st := rfl
@[simp] theorem State.jump_mem (s : State) (a : Word) : (s.jump a).mem = s.mem := rfl
@[simp] theorem State.jump_fb (s : State) (a : Word) : (s.jump a).fb = s.fb := rfl
@[simp] theorem State.jump_keys (s : State) (a : Word) : (s.jump a).keys = s.keys := rfl
@[simp] theorem State.jump_fault (s : State) (a : Word) : (s.jump a).fault = s.fault := rfl
@[simp] theorem State.jump_cfg (s : State) (a : Word) : (s.jump a).cfg = s.cfg := rfl
@[simp] theorem State.jump_rngDraws (s : State) (a : Word) : (s.jump a).rngDraws = s.rngDraws := rfl
@[simp] theorem State.jump_getV (s : State) (a : Word) (k : Reg) : (s.jump a).getV k = s.getV k := rfl
@[simp] theorem State.jump_readByte (s : State) (a : Word) (c : Nat) : (s.jump a).readByte c = s.readByte c := rfl
@[simp] theorem State.jump_pixel (s : State) (a : Word) (col row : Nat) : (s.jump a).pixel col row = s.pixel col row := rfl
@[simp] theorem State.jump_key (s : State) (a : Word) (k : Nibble) : (s.jump a).key k = s.key k := rfl

/-! ## takeFault -/

@[simp] theorem State.takeFault_v (s : State) (w : Option Word) (r : Raise) : (s.takeFault w r).v = s.v := rfl
@[simp] theorem State.takeFault_i (s : State) (w : Option Word) (r : Raise) : (s.takeFault w r).i = s.i := rfl
@[simp] theorem State.takeFault_pc (s : State) (w : Option Word) (r : Raise) : (s.takeFault w r).pc = s.pc := rfl
@[simp] theorem State.takeFault_stack (s : State) (w : Option Word) (r : Raise) : (s.takeFault w r).stack = s.stack := rfl
@[simp] theorem State.takeFault_dt (s : State) (w : Option Word) (r : Raise) : (s.takeFault w r).dt = s.dt := rfl
@[simp] theorem State.takeFault_st (s : State) (w : Option Word) (r : Raise) : (s.takeFault w r).st = s.st := rfl
@[simp] theorem State.takeFault_mem (s : State) (w : Option Word) (r : Raise) : (s.takeFault w r).mem = s.mem := rfl
@[simp] theorem State.takeFault_fb (s : State) (w : Option Word) (r : Raise) : (s.takeFault w r).fb = s.fb := rfl
@[simp] theorem State.takeFault_keys (s : State) (w : Option Word) (r : Raise) : (s.takeFault w r).keys = s.keys := rfl
@[simp] theorem State.takeFault_fault (s : State) (w : Option Word) (r : Raise) : (s.takeFault w r).fault = some { code := r.code, pc := s.pc, word := w, addr := r.addr } := rfl
@[simp] theorem State.takeFault_cfg (s : State) (w : Option Word) (r : Raise) : (s.takeFault w r).cfg = s.cfg := rfl
@[simp] theorem State.takeFault_rngDraws (s : State) (w : Option Word) (r : Raise) : (s.takeFault w r).rngDraws = s.rngDraws := rfl
@[simp] theorem State.takeFault_getV (s : State) (w : Option Word) (r : Raise) (k : Reg) : (s.takeFault w r).getV k = s.getV k := rfl
@[simp] theorem State.takeFault_readByte (s : State) (w : Option Word) (r : Raise) (c : Nat) : (s.takeFault w r).readByte c = s.readByte c := rfl
@[simp] theorem State.takeFault_pixel (s : State) (w : Option Word) (r : Raise) (col row : Nat) : (s.takeFault w r).pixel col row = s.pixel col row := rfl
@[simp] theorem State.takeFault_key (s : State) (w : Option Word) (r : Raise) (k : Nibble) : (s.takeFault w r).key k = s.key k := rfl

/-! ## consumeRandom -/

@[simp] theorem State.consumeRandom_v (s : State) : (s.consumeRandom).v = s.v := rfl
@[simp] theorem State.consumeRandom_i (s : State) : (s.consumeRandom).i = s.i := rfl
@[simp] theorem State.consumeRandom_pc (s : State) : (s.consumeRandom).pc = s.pc := rfl
@[simp] theorem State.consumeRandom_stack (s : State) : (s.consumeRandom).stack = s.stack := rfl
@[simp] theorem State.consumeRandom_dt (s : State) : (s.consumeRandom).dt = s.dt := rfl
@[simp] theorem State.consumeRandom_st (s : State) : (s.consumeRandom).st = s.st := rfl
@[simp] theorem State.consumeRandom_mem (s : State) : (s.consumeRandom).mem = s.mem := rfl
@[simp] theorem State.consumeRandom_fb (s : State) : (s.consumeRandom).fb = s.fb := rfl
@[simp] theorem State.consumeRandom_keys (s : State) : (s.consumeRandom).keys = s.keys := rfl
@[simp] theorem State.consumeRandom_fault (s : State) : (s.consumeRandom).fault = s.fault := rfl
@[simp] theorem State.consumeRandom_cfg (s : State) : (s.consumeRandom).cfg = s.cfg := rfl
@[simp] theorem State.consumeRandom_rngDraws (s : State) : (s.consumeRandom).rngDraws = s.rngDraws + 1 := rfl
@[simp] theorem State.consumeRandom_getV (s : State) (k : Reg) : (s.consumeRandom).getV k = s.getV k := rfl
@[simp] theorem State.consumeRandom_readByte (s : State) (c : Nat) : (s.consumeRandom).readByte c = s.readByte c := rfl
@[simp] theorem State.consumeRandom_pixel (s : State) (col row : Nat) : (s.consumeRandom).pixel col row = s.pixel col row := rfl
@[simp] theorem State.consumeRandom_key (s : State) (k : Nibble) : (s.consumeRandom).key k = s.key k := rfl

/-! ## setScreen -/

@[simp] theorem State.setScreen_v (s : State) (f : Screen) : (s.setScreen f).v = s.v := rfl
@[simp] theorem State.setScreen_i (s : State) (f : Screen) : (s.setScreen f).i = s.i := rfl
@[simp] theorem State.setScreen_pc (s : State) (f : Screen) : (s.setScreen f).pc = s.pc := rfl
@[simp] theorem State.setScreen_stack (s : State) (f : Screen) : (s.setScreen f).stack = s.stack := rfl
@[simp] theorem State.setScreen_dt (s : State) (f : Screen) : (s.setScreen f).dt = s.dt := rfl
@[simp] theorem State.setScreen_st (s : State) (f : Screen) : (s.setScreen f).st = s.st := rfl
@[simp] theorem State.setScreen_mem (s : State) (f : Screen) : (s.setScreen f).mem = s.mem := rfl
@[simp] theorem State.setScreen_fb (s : State) (f : Screen) : (s.setScreen f).fb = f := rfl
@[simp] theorem State.setScreen_keys (s : State) (f : Screen) : (s.setScreen f).keys = s.keys := rfl
@[simp] theorem State.setScreen_fault (s : State) (f : Screen) : (s.setScreen f).fault = s.fault := rfl
@[simp] theorem State.setScreen_cfg (s : State) (f : Screen) : (s.setScreen f).cfg = s.cfg := rfl
@[simp] theorem State.setScreen_rngDraws (s : State) (f : Screen) : (s.setScreen f).rngDraws = s.rngDraws := rfl
@[simp] theorem State.setScreen_getV (s : State) (f : Screen) (k : Reg) : (s.setScreen f).getV k = s.getV k := rfl
@[simp] theorem State.setScreen_readByte (s : State) (f : Screen) (c : Nat) : (s.setScreen f).readByte c = s.readByte c := rfl
@[simp] theorem State.setScreen_key (s : State) (f : Screen) (k : Nibble) : (s.setScreen f).key k = s.key k := rfl

/-- A register reads what was last written to it, and a write leaves the others alone. -/
@[simp] theorem State.getV_setV (s : State) (x k : Reg) (b : Byte) :
    (s.setV x b).getV k = if x = k then b else s.getV k := by
  simp [State.getV, State.setV, Vector.getElem_set, BitVec.toNat_inj]

@[simp] theorem State.setScreen_pixel (s : State) (f : Screen) (c r : Nat) : (s.setScreen f).pixel c r = Screen.pixel f c r := rfl

/-! ## skipIf -/

@[simp] theorem State.skipIf_true (s : State) : s.skipIf true = s.jump (s.pc + 2) := rfl
@[simp] theorem State.skipIf_false (s : State) : s.skipIf false = s := rfl

/-- A skip moves PC by 2 or not at all. -/
theorem State.skipIf_eq (s : State) (c : Bool) : s.skipIf c = s.jump (if c then s.pc + 2 else s.pc) := by
  cases c <;> rfl

/-! ## setResultAndFlag -/

/-- The flag is written last, so it stays when VX is VF (R22). -/
@[simp] theorem State.setResultAndFlag_getV (s : State) (x k : Reg) (b : Byte) (f : Bool) :
    (s.setResultAndFlag x b f).getV k = if k = VF then flagByte f else if x = k then b else s.getV k := by
  simp only [State.setResultAndFlag, State.getV_setV]
  by_cases h : k = VF
  · simp [h]
  · simp [h, Ne.symm h]

@[simp] theorem State.setResultAndFlag_i (s : State) (x : Reg) (b : Byte) (f : Bool) : (s.setResultAndFlag x b f).i = s.i := rfl
@[simp] theorem State.setResultAndFlag_pc (s : State) (x : Reg) (b : Byte) (f : Bool) : (s.setResultAndFlag x b f).pc = s.pc := rfl
@[simp] theorem State.setResultAndFlag_stack (s : State) (x : Reg) (b : Byte) (f : Bool) : (s.setResultAndFlag x b f).stack = s.stack := rfl
@[simp] theorem State.setResultAndFlag_dt (s : State) (x : Reg) (b : Byte) (f : Bool) : (s.setResultAndFlag x b f).dt = s.dt := rfl
@[simp] theorem State.setResultAndFlag_st (s : State) (x : Reg) (b : Byte) (f : Bool) : (s.setResultAndFlag x b f).st = s.st := rfl
@[simp] theorem State.setResultAndFlag_mem (s : State) (x : Reg) (b : Byte) (f : Bool) : (s.setResultAndFlag x b f).mem = s.mem := rfl
@[simp] theorem State.setResultAndFlag_fb (s : State) (x : Reg) (b : Byte) (f : Bool) : (s.setResultAndFlag x b f).fb = s.fb := rfl
@[simp] theorem State.setResultAndFlag_keys (s : State) (x : Reg) (b : Byte) (f : Bool) : (s.setResultAndFlag x b f).keys = s.keys := rfl
@[simp] theorem State.setResultAndFlag_fault (s : State) (x : Reg) (b : Byte) (f : Bool) : (s.setResultAndFlag x b f).fault = s.fault := rfl
@[simp] theorem State.setResultAndFlag_cfg (s : State) (x : Reg) (b : Byte) (f : Bool) : (s.setResultAndFlag x b f).cfg = s.cfg := rfl
@[simp] theorem State.setResultAndFlag_rngDraws (s : State) (x : Reg) (b : Byte) (f : Bool) : (s.setResultAndFlag x b f).rngDraws = s.rngDraws := rfl
@[simp] theorem State.setResultAndFlag_readByte (s : State) (x : Reg) (b : Byte) (f : Bool) (c : Nat) : (s.setResultAndFlag x b f).readByte c = s.readByte c := rfl

/-! ## construct -/

@[simp] theorem State.construct_getV (c : Config) (k : Reg) : (State.construct c).getV k = 0#8 := by
  simp [State.construct, State.getV]

@[simp] theorem State.construct_readByte (c : Config) (a : Nat) : (State.construct c).readByte a = resetByte c a := rfl

@[simp] theorem State.construct_key (c : Config) (k : Nibble) : (State.construct c).key k = false := by
  simp [State.construct, State.key]

@[simp] theorem State.construct_pixel (c : Config) (col row : Nat) : (State.construct c).pixel col row = false := by
  simp [State.construct, State.pixel, Screen.pixel]

end Sys2Proof.Machine
end

