-- ==== Sys2Proof/Laws/Memory.lean ====
section
/-! SUPPORT. The laws of memory: a read after a write, writes elsewhere, and the canonical form that every operation keeps. -/

namespace Sys2Proof.Machine

/-! ## The list of cells -/

theorem Memory.lookup_cons_other (c : Config) (m : List Host.Cell) (a a' : Nat) (b : Byte) (h : a' ≠ a) :
    Memory.lookup (Memory.cons c a b m) a' = Memory.lookup m a' := by
  unfold Memory.cons
  split
  · rfl
  · simp [Memory.lookup, Ne.symm h]

/-- A write leaves every other address alone, whatever the list. -/
theorem Memory.read_write_other (c : Config) (m : List Host.Cell) (a a' : Nat) (b : Byte) (h : a' ≠ a) :
    Memory.read c (Memory.write c m a b) a' = Memory.read c m a' := by
  suffices Memory.lookup (Memory.write c m a b) a' = Memory.lookup m a' by simp [Memory.read, this]
  induction m with
  | nil => exact Memory.lookup_cons_other c [] a a' b h
  | cons cell m ih =>
    obtain ⟨k, w⟩ := cell
    unfold Memory.write
    split
    · exact Memory.lookup_cons_other c _ a a' b h
    · split
      · next hk => rw [Memory.lookup_cons_other c m a a' b h]; simp [Memory.lookup, hk, Ne.symm h]
      · simp only [Memory.lookup, ih]

/-- No cell of a list whose addresses are above `a` is at `a`. -/
theorem Memory.lookup_eq_none {m : List Host.Cell} {a : Nat} (h : ∀ cell ∈ m, a < cell.1) : Memory.lookup m a = none := by
  induction m with
  | nil => rfl
  | cons cell m ih =>
    obtain ⟨k, w⟩ := cell
    have hk : a < k := h (k, w) (by simp)
    simp only [Memory.lookup, if_neg (Nat.ne_of_gt hk)]
    exact ih fun x hx => h x (by simp [hx])

/-- The canonical form of a list with a head. -/
theorem Memory.wf_cons_iff (c : Config) (a : Nat) (b : Byte) (m : List Host.Cell) :
    Memory.wf c ((a, b) :: m) = true ↔
      a < memSize ∧ b ≠ resetByte c a ∧ (∀ cell ∈ m, a < cell.1) ∧ Memory.wf c m = true := by
  simp [Memory.wf, and_assoc]

theorem Memory.read_cons_same (c : Config) (a : Nat) (b : Byte) (m : List Host.Cell) (h : ∀ cell ∈ m, a < cell.1) :
    Memory.read c (Memory.cons c a b m) a = b := by
  unfold Memory.cons
  split
  · next hb => simp [Memory.read, Memory.lookup_eq_none h, hb]
  · simp [Memory.read, Memory.lookup]

/-- A read of the address just written gives the byte written. -/
theorem Memory.read_write_same (c : Config) (m : List Host.Cell) (a : Nat) (b : Byte) (hm : Memory.wf c m = true) :
    Memory.read c (Memory.write c m a b) a = b := by
  induction m with
  | nil => exact Memory.read_cons_same c a b [] (by simp)
  | cons cell m ih =>
    obtain ⟨k, w⟩ := cell
    obtain ⟨-, -, hk, hm⟩ := (Memory.wf_cons_iff c k w m).1 hm
    unfold Memory.write
    split
    · next hak =>
      refine Memory.read_cons_same c a b _ fun x hx => ?_
      rcases List.mem_cons.1 hx with rfl | hx
      · exact hak
      · exact Nat.lt_trans hak (hk x hx)
    · split
      · next hka => subst hka; exact Memory.read_cons_same c k b m hk
      · next hka =>
        have : Memory.read c ((k, w) :: Memory.write c m a b) a = Memory.read c (Memory.write c m a b) a := by
          simp [Memory.read, Memory.lookup, hka]
        rw [this, ih hm]

theorem Memory.wf_cons (c : Config) (a : Nat) (b : Byte) (m : List Host.Cell) (ha : a < memSize)
    (h : ∀ cell ∈ m, a < cell.1) (hm : Memory.wf c m = true) : Memory.wf c (Memory.cons c a b m) = true := by
  unfold Memory.cons
  split
  · exact hm
  · next hb => exact (Memory.wf_cons_iff c a b m).2 ⟨ha, hb, h, hm⟩

theorem Memory.lt_of_mem_cons {c : Config} {a k : Nat} {b : Byte} {m : List Host.Cell} (hka : k < a)
    (h : ∀ cell ∈ m, k < cell.1) : ∀ cell ∈ Memory.cons c a b m, k < cell.1 := by
  intro x hx
  unfold Memory.cons at hx
  split at hx
  · exact h x hx
  · rcases List.mem_cons.1 hx with rfl | hx
    · exact hka
    · exact h x hx

theorem Memory.lt_of_mem_write {c : Config} {a k : Nat} {b : Byte} {m : List Host.Cell} (hka : k < a)
    (h : ∀ cell ∈ m, k < cell.1) : ∀ cell ∈ Memory.write c m a b, k < cell.1 := by
  induction m with
  | nil => exact Memory.lt_of_mem_cons hka h
  | cons cell m ih =>
    obtain ⟨j, w⟩ := cell
    have hj : k < j := h (j, w) (by simp)
    have hm : ∀ cell ∈ m, k < cell.1 := fun x hx => h x (by simp [hx])
    unfold Memory.write
    split
    · exact Memory.lt_of_mem_cons hka h
    · split
      · exact Memory.lt_of_mem_cons hka hm
      · intro x hx
        rcases List.mem_cons.1 hx with rfl | hx
        · exact hj
        · exact ih hm x hx

/-- A write keeps the canonical form. -/
theorem Memory.wf_write (c : Config) (m : List Host.Cell) (a : Nat) (b : Byte) (ha : a < memSize)
    (hm : Memory.wf c m = true) : Memory.wf c (Memory.write c m a b) = true := by
  induction m with
  | nil => exact Memory.wf_cons c a b [] ha (by simp) rfl
  | cons cell m ih =>
    obtain ⟨k, w⟩ := cell
    obtain ⟨hk4, hw, hk, hm'⟩ := (Memory.wf_cons_iff c k w m).1 hm
    unfold Memory.write
    split
    · next hak =>
      refine Memory.wf_cons c a b _ ha (fun x hx => ?_) hm
      rcases List.mem_cons.1 hx with rfl | hx
      · exact hak
      · exact Nat.lt_trans hak (hk x hx)
    · split
      · next hka => subst hka; exact Memory.wf_cons c k b m ha hk hm'
      · next h1 h2 =>
        exact (Memory.wf_cons_iff c k w _).2 ⟨hk4, hw, Memory.lt_of_mem_write (by omega) hk, ih hm'⟩

/-! ## One byte of the state -/

/-- A store changes memory only. -/
theorem State.writeByte_eq (s : State) (a : Nat) (b : Byte) :
    s.writeByte a b = { s with mem := (s.writeByte a b).mem } := by
  unfold State.writeByte; split <;> rfl

theorem State.writeByte_readByte_other (s : State) (a a' : Nat) (b : Byte) (h : a' ≠ a) :
    (s.writeByte a b).readByte a' = s.readByte a' := by
  unfold State.writeByte
  split
  · rfl
  · exact Memory.read_write_other _ _ _ _ _ h

theorem State.writeByte_readByte_same (s : State) (a : Nat) (b : Byte) (ha : a < memSize)
    (hm : Memory.wf s.cfg s.mem = true) : (s.writeByte a b).readByte a = b := by
  unfold State.writeByte
  rw [if_neg (by omega)]
  exact Memory.read_write_same _ _ _ _ hm

theorem State.writeByte_cfg (s : State) (a : Nat) (b : Byte) : (s.writeByte a b).cfg = s.cfg := by
  rw [State.writeByte_eq]

/-- Storing a byte keeps the canonical form, wherever it goes. -/
theorem State.writeByte_wf (s : State) (a : Nat) (b : Byte) (hm : Memory.wf s.cfg s.mem = true) :
    Memory.wf (s.writeByte a b).cfg (s.writeByte a b).mem = true := by
  unfold State.writeByte
  split
  · exact hm
  · exact Memory.wf_write _ _ _ _ (by omega) hm

/-! ## Consecutive bytes -/

/-- Storing bytes changes memory only. -/
theorem State.writeBytes_eq (s : State) (base : Nat) (bytes : List Byte) :
    s.writeBytes base bytes = { s with mem := (s.writeBytes base bytes).mem } := by
  induction bytes generalizing s base with
  | nil => rfl
  | cons b bytes ih =>
    simp only [State.writeBytes]
    rw [ih, State.writeByte_eq]

section
variable (s : State) (base : Nat) (bytes : List Byte)
@[simp] theorem State.writeBytes_v : (s.writeBytes base bytes).v = s.v := by rw [State.writeBytes_eq]
@[simp] theorem State.writeBytes_i : (s.writeBytes base bytes).i = s.i := by rw [State.writeBytes_eq]
@[simp] theorem State.writeBytes_pc : (s.writeBytes base bytes).pc = s.pc := by rw [State.writeBytes_eq]
@[simp] theorem State.writeBytes_stack : (s.writeBytes base bytes).stack = s.stack := by rw [State.writeBytes_eq]
@[simp] theorem State.writeBytes_dt : (s.writeBytes base bytes).dt = s.dt := by rw [State.writeBytes_eq]
@[simp] theorem State.writeBytes_st : (s.writeBytes base bytes).st = s.st := by rw [State.writeBytes_eq]
@[simp] theorem State.writeBytes_fb : (s.writeBytes base bytes).fb = s.fb := by rw [State.writeBytes_eq]
@[simp] theorem State.writeBytes_keys : (s.writeBytes base bytes).keys = s.keys := by rw [State.writeBytes_eq]
@[simp] theorem State.writeBytes_fault : (s.writeBytes base bytes).fault = s.fault := by rw [State.writeBytes_eq]
@[simp] theorem State.writeBytes_cfg : (s.writeBytes base bytes).cfg = s.cfg := by rw [State.writeBytes_eq]
@[simp] theorem State.writeBytes_rngDraws : (s.writeBytes base bytes).rngDraws = s.rngDraws := by rw [State.writeBytes_eq]
@[simp] theorem State.writeBytes_getV (k : Reg) : (s.writeBytes base bytes).getV k = s.getV k := by rw [State.writeBytes_eq]; rfl
@[simp] theorem State.writeBytes_key (k : Nibble) : (s.writeBytes base bytes).key k = s.key k := by rw [State.writeBytes_eq]; rfl
end

/-- A store leaves every byte outside its range alone, whatever the state. -/
theorem State.writeBytes_readByte_outside (s : State) (base : Nat) (bytes : List Byte) (a : Nat)
    (h : a < base ∨ base + bytes.length ≤ a) : (s.writeBytes base bytes).readByte a = s.readByte a := by
  induction bytes generalizing s base with
  | nil => rfl
  | cons b bytes ih =>
    simp only [List.length_cons] at h
    simp only [State.writeBytes]
    rw [ih _ _ (by omega), State.writeByte_readByte_other _ _ _ _ (by omega)]

/-- Storing bytes keeps the canonical form. -/
theorem State.writeBytes_wf (s : State) (base : Nat) (bytes : List Byte) (hm : Memory.wf s.cfg s.mem = true) :
    Memory.wf (s.writeBytes base bytes).cfg (s.writeBytes base bytes).mem = true := by
  induction bytes generalizing s base with
  | nil => exact hm
  | cons b bytes ih => exact ih _ _ (State.writeByte_wf _ _ _ hm)

/-- A store that fits puts its bytes where they go. -/
theorem State.writeBytes_readByte_inside (s : State) (base : Nat) (bytes : List Byte) (k : Nat) (hk : k < bytes.length)
    (hfit : base + bytes.length ≤ memSize) (hm : Memory.wf s.cfg s.mem = true) :
    (s.writeBytes base bytes).readByte (base + k) = bytes[k] := by
  induction bytes generalizing s base k with
  | nil => simp at hk
  | cons b bytes ih =>
    simp only [List.length_cons] at hk hfit
    simp only [State.writeBytes]
    cases k with
    | zero =>
      rw [State.writeBytes_readByte_outside _ _ _ _ (by omega)]
      exact State.writeByte_readByte_same _ _ _ (by omega) hm
    | succ k =>
      rw [show base + (k + 1) = base + 1 + k by omega,
        ih _ _ k (by omega) (by omega) (State.writeByte_wf _ _ _ hm)]
      rfl

end Sys2Proof.Machine
end

