-- ==== Sys2Proof/Laws/Ops.lean ====
section
/-! SUPPORT. One lemma for each shared operation that says all it can do, for proofs to cite instead of unfolding it. -/

namespace Sys2Proof.Machine

/-! ## Executing and committing -/

/-- What executing an instruction's rule answers: the working copy the rule leaves, or the fault it raises, taken. -/
theorem execute_cases (i : Instr) (s : State) (body : State → Except Raise State) :
    (∃ t, body s.advance = .ok t ∧ execute i s body = .next t) ∨
    (∃ r, body s.advance = .error r ∧ execute i s body = .next (s.takeFault (some (encode i)) r)) := by
  unfold execute commit
  cases h : body s.advance with
  | ok t => exact .inl ⟨t, rfl, rfl⟩
  | error r => exact .inr ⟨r, rfl, rfl⟩

/-- A rule that raises nothing commits its working copy. -/
theorem execute_ok {i : Instr} {s t : State} {body : State → Except Raise State} (h : body s.advance = .ok t) :
    execute i s body = .next t := by
  simp [execute, commit, h]

/-- A rule that raises takes the fault on the state before the step. -/
theorem execute_error {i : Instr} {s : State} {r : Raise} {body : State → Except Raise State} (h : body s.advance = .error r) :
    execute i s body = .next (s.takeFault (some (encode i)) r) := by
  simp [execute, commit, h]

/-- Executing always answers a next state. -/
theorem execute_next (i : Instr) (s : State) (body : State → Except Raise State) : ∃ t, execute i s body = .next t := by
  rcases execute_cases i s body with ⟨t, -, h⟩ | ⟨r, -, h⟩ <;> exact ⟨_, h⟩

/-! ## Checks -/

theorem checkRange_ok {base n : Nat} (h : base + n - 1 < memSize) : checkRange base n = .ok () := by
  simp [checkRange, h]

theorem checkRange_error {base n : Nat} (h : memSize ≤ base + n - 1) :
    checkRange base n = .error (.memoryOutOfBounds (max base memSize)) := by
  simp [checkRange, h]

theorem checkRange_ok_iff (base n : Nat) (u : Unit) : checkRange base n = .ok u ↔ base + n - 1 < memSize := by
  unfold checkRange; split <;> simp_all

theorem checkAddress_ok {t : Nat} (h : t < memSize) : checkAddress t = .ok (BitVec.ofNat 16 t) := by
  simp [checkAddress, h]

theorem checkAddress_error {t : Nat} (h : memSize ≤ t) : checkAddress t = .error (.memoryOutOfBounds t) := by
  simp [checkAddress, h]

/-- A checked address is the number checked, below 4096. -/
theorem checkAddress_toNat {t : Nat} {a : Word} (h : checkAddress t = .ok a) : a.toNat = t ∧ t < memSize := by
  unfold checkAddress at h
  split at h
  · cases h
  · cases h
    have ht : t < 4096 := Nat.lt_of_not_le ‹_›
    constructor
    · simp only [BitVec.toNat_ofNat]; omega
    · exact ht

/-- A read that is not out of range gives the byte there. -/
theorem State.memRead_ok (s : State) {a : Nat} (h : a < memSize) : s.memRead a = .ok (s.readByte a) := by
  simp [State.memRead, h]

theorem State.memRead_error (s : State) {a : Nat} (h : memSize ≤ a) : s.memRead a = .error (.memoryOutOfBounds a) := by
  simp [State.memRead, h]

theorem State.keyOf_ok (s : State) {b : Byte} (h : b.toNat < 16) : s.keyOf b = .ok (s.key (b.setWidth 4)) := by
  simp [State.keyOf, h]

theorem State.keyOf_error (s : State) {b : Byte} (h : 16 ≤ b.toNat) : s.keyOf b = .error (.invalidKeyIndex b) := by
  simp [State.keyOf, h]

@[simp] theorem zext16_toNat (nnn : Addr12) : (zext16 nnn).toNat = nnn.toNat := by
  have := nnn.isLt
  simp [zext16]; omega

/-! ## Stack -/

/-- A push fails on a full stack and otherwise adds the newest entry. -/
theorem State.push_cases (s : State) (a : Word) :
    (s.stackFull = true ∧ s.push a = .error .stackOverflow) ∨
    (s.stackFull = false ∧ s.push a = .ok { s with stack := a :: s.stack }) := by
  unfold State.push
  cases h : s.stackFull <;> simp

/-- A pop fails on an empty stack and otherwise gives the newest entry. -/
theorem State.pop_cases (s : State) :
    (s.stack = [] ∧ s.pop = .error .stackUnderflow) ∨
    (∃ a rest, s.stack = a :: rest ∧ s.pop = .ok (a, { s with stack := rest })) := by
  unfold State.pop
  cases h : s.stack with
  | nil => exact .inl ⟨rfl, rfl⟩
  | cons a rest => exact .inr ⟨a, rest, rfl, rfl⟩

/-! ## Fetch -/

/-- The fetch is in range: it gives the two bytes at PC, the first as the high byte. -/
theorem State.fetch_ok (s : State) (h : s.pc.toNat + 1 < memSize) :
    s.fetch = .ok (wordOfBytes (s.readByte s.pc.toNat) (s.readByte (s.pc.toNat + 1))) := by
  simp only [State.fetch, State.memRead_ok s (show s.pc.toNat < memSize by omega), State.memRead_ok s h]

/-- The fetch is out of range: the lower of its addresses that is at or above 4096 is reported. -/
theorem State.fetch_error (s : State) (h : memSize ≤ s.pc.toNat + 1) :
    s.fetch = .error (.memoryOutOfBounds (max s.pc.toNat memSize)) := by
  by_cases hp : memSize ≤ s.pc.toNat
  · simp only [State.fetch, State.memRead_error s hp, Nat.max_eq_left hp]
  · simp only [State.fetch, State.memRead_ok s (show s.pc.toNat < memSize by omega), State.memRead_error s h]
    congr 2; omega

/-! ## Blocks of registers -/

theorem reg_ofNat_toNat (x : Reg) : BitVec.ofNat 4 x.toNat = x := by simp

@[simp] theorem State.regsUpTo_length (s : State) (x : Reg) : (s.regsUpTo x).length = x.toNat + 1 := by
  simp [State.regsUpTo]

theorem State.regsUpTo_getElem (s : State) (x : Reg) (k : Nat) (h : k < (s.regsUpTo x).length) :
    (s.regsUpTo x)[k] = s.getV (BitVec.ofNat 4 k) := by
  simp [State.regsUpTo]

/-- Loading registers changes registers only. -/
theorem State.loadFrom_eq (s : State) (base n : Nat) : s.loadFrom base n = { s with v := (s.loadFrom base n).v } := by
  induction n with
  | zero => rfl
  | succ n ih =>
    simp only [State.loadFrom]
    generalize s.loadFrom base n = u at ih
    rw [ih]; rfl

@[simp] theorem State.loadFrom_readByte (s : State) (base n a : Nat) : (s.loadFrom base n).readByte a = s.readByte a := by
  rw [State.loadFrom_eq]; rfl

/-- The first `n` registers are loaded from consecutive bytes, and the others are left alone. -/
theorem State.loadFrom_getV (s : State) (base n : Nat) (k : Reg) (hn : n ≤ 16) :
    (s.loadFrom base n).getV k = if k.toNat < n then s.readByte (base + k.toNat) else s.getV k := by
  induction n with
  | zero => simp [State.loadFrom]
  | succ n ih =>
    simp only [State.loadFrom, State.getV_setV]
    have hk : (BitVec.ofNat 4 n).toNat = n := by simp; omega
    by_cases h : BitVec.ofNat 4 n = k
    · subst h
      simp only [if_pos, hk, State.readByte]
      simp [show n < n + 1 by omega]
    · have hne : k.toNat ≠ n := fun e => h (by rw [← e]; simp)
      rw [if_neg h, ih (by omega)]
      by_cases hlt : k.toNat < n
      · simp [hlt, show k.toNat < n + 1 by omega]
      · simp [hlt, show ¬ k.toNat < n + 1 by omega]

end Sys2Proof.Machine
end

