-- ==== Sys2Proof/Laws/Display.lean ====
section
/-! SUPPORT. What drawing does, pixel by pixel: a sprite is a list of plots at places no two of which are the same, so every covered pixel
is inverted once (43_display rule R163). -/

namespace Sys2Proof.Machine

/-! ## One pixel -/

theorem Screen.pixel_flip (f : Screen) (col row c r : Nat) (hcol : col < 64) (hrow : row < 32) :
    Screen.pixel (Screen.flip f col row) c r = (Screen.pixel f c r ^^ decide ((c, r) = (col, row))) := by
  unfold Screen.pixel Screen.flip
  rw [dif_pos hrow]
  by_cases hr : r < 32
  · rw [dif_pos hr, dif_pos hr, Vector.getElem_set]
    by_cases hrr : row = r
    · subst hrr
      simp only [if_pos, BitVec.getLsbD_xor, Prod.mk.injEq, and_true]
      congr 1
      rw [Bool.eq_iff_iff]
      simp [BitVec.getLsbD_shiftLeft, BitVec.getLsbD_one]
      omega
    · rw [if_neg hrr]
      simp [Ne.symm hrr]
  · rw [dif_neg hr, dif_neg hr]
    have : r ≠ row := by omega
    simp [this]

/-- A canvas after one plot at a place on the display. -/
theorem Canvas.plot_some (c : Canvas) (bit : Bool) (col row : Nat) (hcol : col < 64) (hrow : row < 32) (q : Nat × Nat) :
    Screen.pixel (c.plot bit (some (col, row))).screen q.1 q.2 =
        (Screen.pixel c.screen q.1 q.2 ^^ (bit && decide (q = (col, row)))) ∧
      (c.plot bit (some (col, row))).collision = (c.collision || (bit && Screen.pixel c.screen col row)) := by
  cases bit
  · simp [Canvas.plot]
  · simp [Canvas.plot, Screen.pixel_flip _ _ _ _ _ hcol hrow]

/-! ## A list of plots -/

/-- One plot: the sprite bit and its place. -/
abbrev Plot := Bool × Option (Nat × Nat)

/-- Plot a list, first to last. -/
def Canvas.plotAll (c : Canvas) (l : List Plot) : Canvas := l.foldl (fun c p => c.plot p.1 p.2) c

/-- A list hits a pixel when some 1 bit of it is placed there. -/
def hits (l : List Plot) (q : Nat × Nat) : Prop := (true, some q) ∈ l

/-- Plots at different places: each covered pixel is inverted once, and a collision is a covered pixel that was lit. -/
theorem Canvas.plotAll_spec (l : List Plot) (c : Canvas)
    (hon : ∀ p ∈ l, ∀ q, p.2 = some q → q.1 < 64 ∧ q.2 < 32)
    (hdiff : l.Pairwise fun p p' => p.2 ≠ none → p.2 ≠ p'.2) :
    (∀ q, Screen.pixel (c.plotAll l).screen q.1 q.2 = true ↔
        ¬ (Screen.pixel c.screen q.1 q.2 = true ↔ hits l q)) ∧
      ((c.plotAll l).collision = true ↔
        c.collision = true ∨ ∃ q, hits l q ∧ Screen.pixel c.screen q.1 q.2 = true) := by
  induction l generalizing c with
  | nil => simp [Canvas.plotAll, hits]
  | cons p l ih =>
    obtain ⟨bit, place⟩ := p
    obtain ⟨hp, hdiff⟩ := List.pairwise_cons.1 hdiff
    have hon' : ∀ p ∈ l, ∀ q, p.2 = some q → q.1 < 64 ∧ q.2 < 32 := fun p hp => hon p (by simp [hp])
    obtain ⟨ihp, ihc⟩ := ih (c.plot bit place) hon' hdiff
    rw [show c.plotAll ((bit, place) :: l) = (c.plot bit place).plotAll l from rfl]
    cases place with
    | none =>
      have hh : ∀ q, hits ((bit, none) :: l) q ↔ hits l q := fun q => by simp [hits]
      simp only [Canvas.plot] at ihp ihc
      exact ⟨fun q => by rw [hh]; exact ihp q, by simp only [hh]; exact ihc⟩
    | some q₀ =>
      obtain ⟨hq1, hq2⟩ := hon (bit, some q₀) (by simp) q₀ rfl
      have hno : ¬ hits l q₀ := fun h => hp _ h (by simp) rfl
      have hspec := fun q => Canvas.plot_some c bit q₀.1 q₀.2 hq1 hq2 q
      have hh : ∀ q, hits ((bit, some q₀) :: l) q ↔ (bit = true ∧ q = q₀) ∨ hits l q := fun q => by
        simp only [hits, List.mem_cons, Prod.mk.injEq, Option.some.injEq]
        constructor <;> rintro (⟨h1, h2⟩ | h) <;> simp_all
      constructor
      · intro q
        rw [ihp q, (hspec q).1, hh q]
        by_cases hq : q = q₀
        · subst hq
          cases bit <;> simp [hno]
        · simp [hq]
      · rw [ihc, (hspec q₀).2]
        simp only [hh]
        constructor
        · rintro (h | ⟨q, hq, hlit⟩)
          · rcases Bool.or_eq_true_iff.1 h with h | h
            · exact .inl h
            · obtain ⟨hb, hl⟩ := Bool.and_eq_true_iff.1 h
              exact .inr ⟨q₀, .inl ⟨hb, rfl⟩, hl⟩
          · have hne : q ≠ q₀ := fun e => hno (e ▸ hq)
            rw [(hspec q).1] at hlit
            exact .inr ⟨q, .inr hq, by simpa [hne] using hlit⟩
        · rintro (h | ⟨q, hq | hq, hlit⟩)
          · exact .inl (by simp [h])
          · obtain ⟨hb, rfl⟩ := hq
            exact .inl (by simp [hb, hlit])
          · have hne : q ≠ q₀ := fun e => hno (e ▸ hq)
            exact .inr ⟨q, hq, by rw [(hspec q).1]; simpa [hne] using hlit⟩

/-! ## A sprite -/

/-- The plots of a sprite, row by row and bit by bit. -/
def spritePlots (edge : SpriteEdge) (ox oy : Nat) (rowByte : Nat → Byte) (n : Nat) : List Plot :=
  (List.range n).flatMap fun r => (List.range 8).map fun b => ((rowByte r).getLsbD (7 - b), spritePlace edge ox oy r b)

theorem Canvas.plotSprite_eq (edge : SpriteEdge) (ox oy : Nat) (rowByte : Nat → Byte) (n : Nat) (c : Canvas) :
    c.plotSprite edge ox oy rowByte n = c.plotAll (spritePlots edge ox oy rowByte n) := by
  simp only [Canvas.plotSprite, Canvas.plotAll, spritePlots, Canvas.plotRow, List.foldl_flatMap, List.foldl_map]

theorem spritePlace_on_screen {edge : SpriteEdge} {ox oy r b : Nat} {q : Nat × Nat}
    (h : spritePlace edge ox oy r b = some q) : q.1 < 64 ∧ q.2 < 32 := by
  cases edge with
  | clip =>
    simp only [spritePlace] at h
    split at h
    · next hin => cases h; exact ⟨hin.2, hin.1⟩
    · cases h
  | wrap =>
    simp only [spritePlace] at h
    cases h
    exact ⟨Nat.mod_lt _ (by decide), Nat.mod_lt _ (by decide)⟩

/-- Two bits of one sprite never fall on the same pixel: 8 columns are fewer than 64, and 15 rows fewer than 32 (R162). -/
theorem spritePlace_inj {edge : SpriteEdge} {ox oy r b r' b' : Nat} {q : Nat × Nat} (hr : r < 16) (hr' : r' < 16)
    (hb : b < 8) (hb' : b' < 8) (h : spritePlace edge ox oy r b = some q) (h' : spritePlace edge ox oy r' b' = some q) :
    r = r' ∧ b = b' := by
  cases edge with
  | clip =>
    simp only [spritePlace] at h h'
    split at h
    · split at h'
      · cases h
        simp only [Option.some.injEq, Prod.mk.injEq] at h'
        omega
      · cases h'
    · cases h
  | wrap =>
    simp only [spritePlace, displayW, displayH] at h h'
    cases h
    simp only [Option.some.injEq, Prod.mk.injEq] at h'
    omega

theorem spritePlots_diff (edge : SpriteEdge) (ox oy : Nat) (rowByte : Nat → Byte) (n : Nat) (hn : n < 16) :
    (spritePlots edge ox oy rowByte n).Pairwise fun p p' => p.2 ≠ none → p.2 ≠ p'.2 := by
  unfold spritePlots
  rw [List.pairwise_flatMap]
  constructor
  · intro r hr
    rw [List.pairwise_map]
    refine List.Pairwise.imp_of_mem ?_ (List.pairwise_lt_range)
    intro b b' hb hb' hlt hne heq
    obtain ⟨q, hq⟩ := Option.ne_none_iff_exists'.1 hne
    have hr := List.mem_range.1 hr
    have := (spritePlace_inj (by omega) (by omega) (List.mem_range.1 hb) (List.mem_range.1 hb') hq (heq ▸ hq)).2
    omega
  · refine List.Pairwise.imp_of_mem ?_ (List.pairwise_lt_range)
    intro r r' hr hr' hlt p hp p' hp' hne heq
    obtain ⟨b, hb, rfl⟩ := List.mem_map.1 hp
    obtain ⟨b', hb', rfl⟩ := List.mem_map.1 hp'
    obtain ⟨q, hq⟩ := Option.ne_none_iff_exists'.1 hne
    have hr := List.mem_range.1 hr
    have hr' := List.mem_range.1 hr'
    have := (spritePlace_inj (by omega) (by omega) (List.mem_range.1 hb) (List.mem_range.1 hb') hq (heq ▸ hq)).1
    omega

/-- A pixel of the display is hit by a sprite's plots exactly when the sprite covers it. -/
theorem hits_spritePlots_iff (s : State) (x y : Reg) (n : Nibble) (col row : Nat) (hc : col < 64) (hr : row < 32) :
    hits (spritePlots s.cfg.spriteEdge ((s.getV x).toNat % displayW) ((s.getV y).toNat % displayH)
      (fun r => s.readByte (s.i.toNat + r)) n.toNat) (col, row) ↔ s.covers x y n col row := by
  simp only [hits, spritePlots, List.mem_flatMap, List.mem_map, List.mem_range, Prod.mk.injEq, State.covers]
  constructor
  · rintro ⟨r, hrn, b, hb, hbit, hplace⟩
    refine ⟨r, b, hrn, hb, hbit, ?_⟩
    cases hE : s.cfg.spriteEdge with
    | clip =>
      simp only [hE, spritePlace] at hplace
      split at hplace
      · simpa using hplace
      · cases hplace
    | wrap => simpa [hE, spritePlace] using hplace
  · rintro ⟨r, b, hrn, hb, hbit, hplace⟩
    refine ⟨r, hrn, b, hb, hbit, ?_⟩
    cases hE : s.cfg.spriteEdge with
    | clip =>
      simp only [hE] at hplace
      obtain ⟨h1, h2⟩ := hplace
      simp only [spritePlace, displayW, displayH]
      rw [if_pos ⟨by omega, by omega⟩, h1, h2]
    | wrap => simpa [hE, spritePlace] using hplace

/-- Every pixel after a draw: inverted where the sprite covers it, unchanged elsewhere. -/
theorem State.drawn_pixel (s : State) (x y : Reg) (n : Nibble) (col row : Nat) (hc : col < 64) (hr : row < 32) :
    Screen.pixel (s.drawn x y n).screen col row = true ↔ ¬ (s.pixel col row = true ↔ s.covers x y n col row) := by
  have h := (Canvas.plotAll_spec _ { screen := s.fb, collision := false } ?_
    (spritePlots_diff s.cfg.spriteEdge ((s.getV x).toNat % displayW) ((s.getV y).toNat % displayH)
      (fun r => s.readByte (s.i.toNat + r)) n.toNat n.isLt)).1 (col, row)
  · rw [← Canvas.plotSprite_eq, hits_spritePlots_iff s x y n col row hc hr] at h
    exact h
  · intro p hp q hq
    simp only [spritePlots, List.mem_flatMap, List.mem_map] at hp
    obtain ⟨r, -, b, -, rfl⟩ := hp
    exact spritePlace_on_screen hq

/-- The collision of a draw: some covered pixel was lit. -/
theorem State.drawn_collision (s : State) (x y : Reg) (n : Nibble) :
    (s.drawn x y n).collision = true ↔
      ∃ col row, col < 64 ∧ row < 32 ∧ s.covers x y n col row ∧ s.pixel col row = true := by
  have hon : ∀ p ∈ spritePlots s.cfg.spriteEdge ((s.getV x).toNat % displayW) ((s.getV y).toNat % displayH)
      (fun r => s.readByte (s.i.toNat + r)) n.toNat, ∀ q, p.2 = some q → q.1 < 64 ∧ q.2 < 32 := by
    intro p hp q hq
    simp only [spritePlots, List.mem_flatMap, List.mem_map] at hp
    obtain ⟨r, -, b, -, rfl⟩ := hp
    exact spritePlace_on_screen hq
  have h := (Canvas.plotAll_spec _ { screen := s.fb, collision := false } hon
    (spritePlots_diff s.cfg.spriteEdge ((s.getV x).toNat % displayW) ((s.getV y).toNat % displayH)
      (fun r => s.readByte (s.i.toNat + r)) n.toNat n.isLt)).2
  rw [← Canvas.plotSprite_eq] at h
  refine h.trans ?_
  simp only [Bool.false_eq_true, false_or]
  constructor
  · rintro ⟨⟨col, row⟩, hq, hlit⟩
    obtain ⟨hc, hr⟩ := hon _ hq _ rfl
    exact ⟨col, row, hc, hr, (hits_spritePlots_iff s x y n col row hc hr).1 hq, hlit⟩
  · rintro ⟨col, row, hc, hr, hcov, hlit⟩
    exact ⟨(col, row), (hits_spritePlots_iff s x y n col row hc hr).2 hcov, hlit⟩

end Sys2Proof.Machine
end

