-- ==== Sys2Proof/Laws/Exec.lean ====
section
/-! SUPPORT. Everything an instruction can do, said once: it raises its own kind of fault, which is taken, or it leaves the state
`Instr.result` names. Proofs about all instructions split on this and never unfold a meaning. -/

namespace Sys2Proof.Machine

/-- The state instruction `i` leaves when it raises nothing, as one expression over the state before the step. -/
def Instr.result (i : Instr) (s : State) : State :=
  match i with
  | .cls => s.advance.setScreen (Vector.replicate 32 0#64)
  | .ret => { s with pc := s.stack.headD 0#16, stack := s.stack.tail }
  | .jp nnn => s.jump (zext16 nnn)
  | .call nnn => { s with pc := zext16 nnn, stack := (s.pc + 2) :: s.stack }
  | .seByte x nn => s.jump (if s.getV x = nn then s.pc + 4 else s.pc + 2)
  | .sneByte x nn => s.jump (if s.getV x = nn then s.pc + 2 else s.pc + 4)
  | .seReg x y => s.jump (if s.getV x = s.getV y then s.pc + 4 else s.pc + 2)
  | .ldByte x nn => s.advance.setV x nn
  | .addByte x nn => s.advance.setV x (s.getV x + nn)
  | .ldReg x y => s.advance.setV x (s.getV y)
  | .orReg x y => s.advance.setV x (s.getV x ||| s.getV y)
  | .andReg x y => s.advance.setV x (s.getV x &&& s.getV y)
  | .xorReg x y => s.advance.setV x (s.getV x ^^^ s.getV y)
  | .addReg x y => s.advance.setResultAndFlag x (s.getV x + s.getV y) (carryOut (s.getV x) (s.getV y))
  | .sub x y => s.advance.setResultAndFlag x (s.getV x - s.getV y) (noBorrow (s.getV x) (s.getV y))
  | .shr x y => s.advance.setResultAndFlag x (s.shiftSource x y >>> 1) (lowBit (s.shiftSource x y))
  | .subn x y => s.advance.setResultAndFlag x (s.getV y - s.getV x) (noBorrow (s.getV y) (s.getV x))
  | .shl x y => s.advance.setResultAndFlag x (s.shiftSource x y <<< 1) (highBit (s.shiftSource x y))
  | .sneReg x y => s.jump (if s.getV x = s.getV y then s.pc + 2 else s.pc + 4)
  | .ldI nnn => s.advance.setI (zext16 nnn)
  | .jpV0 nnn => s.jump (BitVec.ofNat 16 (s.offsetTarget nnn))
  | .rnd x nn => s.advance.consumeRandom.setV x (s.randomByte &&& nn)
  | .drw x y n => (s.advance.setScreen (s.drawn x y n).screen).setV VF (flagByte (s.drawn x y n).collision)
  | .skp x => s.jump (if s.key ((s.getV x).setWidth 4) = true then s.pc + 4 else s.pc + 2)
  | .sknp x => s.jump (if s.key ((s.getV x).setWidth 4) = true then s.pc + 2 else s.pc + 4)
  | .ldVxDt x => s.advance.setV x s.dt
  | .ldVxK x =>
    match s.lowestKey with
    | none => s
    | some k => s.advance.setV x (k.setWidth 8)
  | .ldDtVx x => s.advance.setDt (s.getV x)
  | .ldStVx x => s.advance.setSt (s.getV x)
  | .addI x => s.advance.setI (BitVec.ofNat 16 (s.indexSum x))
  | .ldF x => s.advance.setI (BitVec.ofNat 16 (s.glyphAddress x))
  | .ldB x => s.advance.writeBytes s.i.toNat (bcdDigits (s.getV x))
  | .storeRegs x => s.advance.writeBytes s.i.toNat (s.regsUpTo x)
  | .loadRegs x => s.advance.loadFrom s.i.toNat (x.toNat + 1)

/-- When instruction `i` raises nothing. -/
def Instr.runs (i : Instr) (s : State) : Prop :=
  match i with
  | .ret => s.stack ≠ []
  | .call _ => s.stackFull = false
  | .jpV0 nnn => s.offsetTarget nnn < memSize
  | .drw _ _ n => n = 0#4 ∨ s.i.toNat + n.toNat ≤ memSize
  | .skp x | .sknp x => (s.getV x).toNat < 16
  | .addI x => s.indexSum x < memSize
  | .ldB _ => s.i.toNat + 2 < memSize
  | .storeRegs x | .loadRegs x => s.i.toNat + x.toNat < memSize
  | .cls | .jp _ | .seByte _ _ | .sneByte _ _ | .seReg _ _ | .ldByte _ _ | .addByte _ _ | .ldReg _ _ | .orReg _ _
  | .andReg _ _ | .xorReg _ _ | .addReg _ _ | .sub _ _ | .shr _ _ | .subn _ _ | .shl _ _ | .sneReg _ _ | .ldI _
  | .rnd _ _ | .ldVxDt _ | .ldVxK _ | .ldDtVx _ | .ldStVx _ | .ldF _ => True

/-- What instruction `i` raises when it does not run; for the others the value stands for nothing. -/
def Instr.raise (i : Instr) (s : State) : Raise :=
  match i with
  | .ret => .stackUnderflow
  | .call _ => .stackOverflow
  | .jpV0 nnn => .memoryOutOfBounds (s.offsetTarget nnn)
  | .skp x | .sknp x => .invalidKeyIndex (s.getV x)
  | .addI x => .memoryOutOfBounds (s.indexSum x)
  | .drw _ _ _ | .ldB _ | .storeRegs _ | .loadRegs _ => .memoryOutOfBounds (max s.i.toNat memSize)
  | .cls | .jp _ | .seByte _ _ | .sneByte _ _ | .seReg _ _ | .ldByte _ _ | .addByte _ _ | .ldReg _ _ | .orReg _ _
  | .andReg _ _ | .xorReg _ _ | .addReg _ _ | .sub _ _ | .shr _ _ | .subn _ _ | .shl _ _ | .sneReg _ _ | .ldI _
  | .rnd _ _ | .ldVxDt _ | .ldVxK _ | .ldDtVx _ | .ldStVx _ | .ldF _ => .unimplementedOpcode

theorem State.skipIf_advance (s : State) (c : Bool) :
    s.advance.skipIf c = s.jump (if c = true then s.pc + 4 else s.pc + 2) := by
  cases c
  · rfl
  · simp only [State.skipIf, if_pos, State.advance, State.jump, BitVec.add_assoc]; rfl

theorem State.jump_back (s : State) : s.advance.jump (s.advance.pc - 2) = s := by
  simp [State.advance, State.jump]

theorem State.glyphAddress_lt (s : State) (x : Reg) : s.glyphAddress x < memSize := by
  have := (s.getV x).isLt
  simp only [State.glyphAddress, fontBase, memSize]; omega

/-- The range check of DXYN passes exactly when there is no row, or all rows are in memory. -/
theorem State.checkSprite_eq (s : State) (n : Nibble) :
    s.checkSprite n = if n = 0#4 ∨ s.i.toNat + n.toNat ≤ memSize then .ok () else .error (.memoryOutOfBounds (max s.i.toNat memSize)) := by
  unfold State.checkSprite
  by_cases hn : n = 0#4
  · simp [hn]
  · have h0 : n.toNat ≠ 0 := fun e => hn (BitVec.eq_of_toNat_eq (by simpa using e))
    simp only [hn, if_false, false_or, checkRange]
    by_cases h : s.i.toNat + n.toNat ≤ memSize
    · rw [if_pos h, if_neg (by omega)]
    · rw [if_neg h, if_pos (by omega)]

/-- An instruction that runs leaves its result. -/
theorem exec_of_runs {i : Instr} {s : State} (h : Instr.runs i s) : exec i s = .next (Instr.result i s) := by
  cases i
  all_goals simp only [exec, execCls, execRet, execJp, execCall, execSeByte, execSneByte, execSeReg, execLdByte, execAddByte, execLdReg, execOrReg,
    execAndReg, execXorReg, execAddReg, execSub, execShr, execSubn, execShl, execSneReg, execLdI, execJpV0, execRnd, execDrw, execSkp,
    execSknp, execLdVxDt, execLdVxK, execLdDtVx, execLdStVx, execAddI, execLdF, execLdB, execStoreRegs, execLoadRegs]
  case seByte x nn | sneByte x nn | seReg x y | sneReg x y =>
    refine execute_ok ?_
    rw [State.skipIf_advance]
    simp [Instr.result]
  case ret =>
    obtain ⟨ha, -⟩ | ⟨a, rest, ha, hp⟩ := State.pop_cases s.advance
    · exact absurd (show s.stack = [] from ha) h
    · refine execute_ok ?_
      simp only [hp, Instr.result, show s.stack = a :: rest from ha]
      rfl
  case call nnn =>
    refine execute_ok ?_
    simp only [State.push, show s.advance.stackFull = false from h]
    rfl
  case jpV0 nnn => exact execute_ok (by simp only [checkAddress_ok (show s.advance.offsetTarget nnn < memSize from h)]; rfl)
  case addI x => exact execute_ok (by simp only [checkAddress_ok (show s.advance.indexSum x < memSize from h)]; rfl)
  case ldF x => exact execute_ok (by simp only [checkAddress_ok (State.glyphAddress_lt s.advance x)]; rfl)
  case ldB x =>
    exact execute_ok (by simp only [checkRange_ok (show s.advance.i.toNat + 3 - 1 < memSize from h)]; rfl)
  case storeRegs x | loadRegs x =>
    exact execute_ok (by simp only [checkRange_ok (show s.advance.i.toNat + (x.toNat + 1) - 1 < memSize from h)]; rfl)
  case drw x y n =>
    refine execute_ok ?_
    simp only [State.checkSprite_eq, if_pos (show n = 0#4 ∨ s.advance.i.toNat + n.toNat ≤ memSize from h)]
    rfl
  case skp x =>
    refine execute_ok ?_
    have hk : s.advance.keyOf (s.advance.getV x) = .ok (s.key ((s.getV x).setWidth 4)) := State.keyOf_ok s.advance h
    simp only [hk, State.skipIf_advance, Instr.result]
  case sknp x =>
    refine execute_ok ?_
    have hk : s.advance.keyOf (s.advance.getV x) = .ok (s.key ((s.getV x).setWidth 4)) := State.keyOf_ok s.advance h
    simp only [hk, State.skipIf_advance, Instr.result]
    cases s.key ((s.getV x).setWidth 4) <;> rfl
  case ldVxK x =>
    refine execute_ok ?_
    simp only [show s.advance.lowestKey = s.lowestKey from rfl, Instr.result]
    cases s.lowestKey with
    | none => simp only [State.jump_back]
    | some k => rfl
  all_goals exact execute_ok rfl

/-- An instruction that does not run takes the one fault it can raise. -/
theorem exec_of_not_runs {i : Instr} {s : State} (h : ¬ Instr.runs i s) :
    exec i s = .next (s.takeFault (some (encode i)) (Instr.raise i s)) := by
  cases i
  all_goals simp only [exec, execCls, execRet, execJp, execCall, execSeByte, execSneByte, execSeReg, execLdByte, execAddByte, execLdReg, execOrReg,
    execAndReg, execXorReg, execAddReg, execSub, execShr, execSubn, execShl, execSneReg, execLdI, execJpV0, execRnd, execDrw, execSkp,
    execSknp, execLdVxDt, execLdVxK, execLdDtVx, execLdStVx, execAddI, execLdF, execLdB, execStoreRegs, execLoadRegs]
  case ret =>
    obtain ⟨-, hp⟩ | ⟨a, rest, ha, -⟩ := State.pop_cases s.advance
    · exact execute_error (by simp only [hp]; rfl)
    · exact absurd (show s.stack ≠ [] by rw [show s.stack = a :: rest from ha]; simp) h
  case call nnn =>
    refine execute_error ?_
    simp only [State.push, show s.advance.stackFull = true from Bool.eq_true_of_not_eq_false h]
    rfl
  case jpV0 nnn =>
    exact execute_error (by simp only [checkAddress_error (show memSize ≤ s.advance.offsetTarget nnn from Nat.le_of_not_lt h)]; rfl)
  case addI x =>
    exact execute_error (by simp only [checkAddress_error (show memSize ≤ s.advance.indexSum x from Nat.le_of_not_lt h)]; rfl)
  case ldB x =>
    exact execute_error (by simp only [checkRange_error (show memSize ≤ s.advance.i.toNat + 3 - 1 from Nat.le_of_not_lt h)]; rfl)
  case storeRegs x | loadRegs x =>
    exact execute_error
      (by simp only [checkRange_error (show memSize ≤ s.advance.i.toNat + (x.toNat + 1) - 1 from Nat.le_of_not_lt h)]; rfl)
  case drw x y n =>
    refine execute_error ?_
    simp only [State.checkSprite_eq, if_neg (show ¬ (n = 0#4 ∨ s.advance.i.toNat + n.toNat ≤ memSize) from h)]
    rfl
  case skp x | sknp x =>
    exact execute_error (by simp only [State.keyOf_error s.advance (b := s.advance.getV x) (Nat.le_of_not_lt h)]; rfl)
  all_goals exact absurd trivial h

/-- What an instruction raises is of its kind, and an address it reports is out of range. -/
theorem raise_of_not_runs {i : Instr} {s : State} (h : ¬ Instr.runs i s) :
    Instr.faultKind i = some (Instr.raise i s).code ∧ ∀ a, (Instr.raise i s).addr = some a → memSize ≤ a := by
  cases i <;> simp_all [Instr.runs, Instr.raise, Instr.faultKind, Raise.code, Raise.addr]

/-- The two outcomes of an instruction. -/
theorem exec_cases {i : Instr} {s t : State} (h : exec i s = .next t) :
    (Instr.runs i s ∧ t = Instr.result i s) ∨
    (¬ Instr.runs i s ∧ t = s.takeFault (some (encode i)) (Instr.raise i s)) := by
  by_cases hr : Instr.runs i s
  · rw [exec_of_runs hr] at h; cases h; exact .inl ⟨hr, rfl⟩
  · rw [exec_of_not_runs hr] at h; cases h; exact .inr ⟨hr, rfl⟩

/-! ## Fields no result, or few results, change -/

theorem Instr.result_fault (i : Instr) (s : State) : (Instr.result i s).fault = s.fault := by
  cases i <;> simp only [Instr.result] <;> first | rfl | simp | (split <;> rfl) | (rw [State.loadFrom_eq]; rfl)

theorem Instr.result_cfg (i : Instr) (s : State) : (Instr.result i s).cfg = s.cfg := by
  cases i <;> simp only [Instr.result] <;> first | rfl | simp | (split <;> rfl) | (rw [State.loadFrom_eq]; rfl)

theorem Instr.result_keys (i : Instr) (s : State) : (Instr.result i s).keys = s.keys := by
  cases i <;> simp only [Instr.result] <;> first | rfl | simp | (split <;> rfl) | (rw [State.loadFrom_eq]; rfl)

/-! ## Frames of stores -/

theorem mem_bytesAt {a base n : Nat} : Part.mem a ∈ bytesAt base n ↔ base ≤ a ∧ a < base + n := by
  simp only [bytesAt, List.mem_map, List.mem_range, Part.mem.injEq]
  constructor
  · rintro ⟨k, hk, rfl⟩; omega
  · intro h; exact ⟨a - base, by omega, by omega⟩

/-- Storing bytes changes those bytes and nothing else. -/
theorem State.writeBytes_onlyChanges (s : State) (base : Nat) (bytes : List Byte) :
    OnlyChanges s (s.writeBytes base bytes) (bytesAt base bytes.length) := by
  intro p hp
  cases p
  case mem a =>
    rw [mem_bytesAt] at hp
    exact State.writeBytes_readByte_outside _ _ _ _ (by omega)
  all_goals simp [Part.same]

end Sys2Proof.Machine
end

