-- ==== Sys2Proof/Laws/PerInstr.lean ====
section
/-! SUPPORT. Statements about every instruction as syntax, one lemma for each constructor. -/

namespace Sys2Proof.Laws

/-! ## A format under a mask -/

theorem formatA_and (op op' : Nibble) (a a' : Addr12) : formatA op a &&& formatA op' a' = formatA (op &&& op') (a &&& a') :=
  BitVec.and_append

theorem formatXB_and (op op' : Nibble) (x x' : Reg) (b b' : Byte) :
    formatXB op x b &&& formatXB op' x' b' = formatXB (op &&& op') (x &&& x') (b &&& b') :=
  (BitVec.and_append (x₁ := op ++ x) (x₂ := op' ++ x')).trans (congrArg (· ++ (b &&& b')) BitVec.and_append)

theorem formatXYN_and (op op' : Nibble) (x x' y y' : Reg) (n n' : Nibble) :
    formatXYN op x y n &&& formatXYN op' x' y' n' = formatXYN (op &&& op') (x &&& x') (y &&& y') (n &&& n') :=
  (BitVec.and_append (x₁ := op ++ x ++ y) (x₂ := op' ++ x' ++ y')).trans
    (congrArg (· ++ (n &&& n')) ((BitVec.and_append (x₁ := op ++ x) (x₂ := op' ++ x')).trans
      (congrArg (· ++ (y &&& y')) BitVec.and_append)))

/-- A word of format A under the mask 0xF000 keeps its op-class only. -/
theorem formatA_mask (op : Nibble) (a : Addr12) : formatA op a &&& 0xF000#16 = formatA op 0#12 := by
  rw [show (0xF000#16 : Word) = formatA 0xF#4 0#12 by decide, formatA_and, BitVec.and_zero,
    show op &&& 0xF#4 = op from BitVec.and_allOnes]

/-- A word of format XB under the mask 0xF000 keeps its op-class only. -/
theorem formatXB_mask (op : Nibble) (x : Reg) (b : Byte) : formatXB op x b &&& 0xF000#16 = formatXB op 0#4 0#8 := by
  rw [show (0xF000#16 : Word) = formatXB 0xF#4 0#4 0#8 by decide, formatXB_and, BitVec.and_zero, BitVec.and_zero,
    show op &&& 0xF#4 = op from BitVec.and_allOnes]

/-- A word of format XS under the mask 0xF0FF keeps its op-class and sub-op byte. -/
theorem formatXS_mask (op : Nibble) (x : Reg) (b : Byte) : formatXB op x b &&& 0xF0FF#16 = formatXB op 0#4 b := by
  rw [show (0xF0FF#16 : Word) = formatXB 0xF#4 0#4 0xFF#8 by decide, formatXB_and, BitVec.and_zero,
    show op &&& 0xF#4 = op from BitVec.and_allOnes, show b &&& 0xFF#8 = b from BitVec.and_allOnes]

/-- A word of format XYS under the mask 0xF00F keeps its op-class and sub-op nibble. -/
theorem formatXYS_mask (op : Nibble) (x y : Reg) (n : Nibble) : formatXYN op x y n &&& 0xF00F#16 = formatXYN op 0#4 0#4 n := by
  rw [show (0xF00F#16 : Word) = formatXYN 0xF#4 0#4 0#4 0xF#4 by decide, formatXYN_and, BitVec.and_zero, BitVec.and_zero,
    show op &&& 0xF#4 = op from BitVec.and_allOnes, show n &&& 0xF#4 = n from BitVec.and_allOnes]

/-- A word of format XYN under the mask 0xF000 keeps its op-class only. -/
theorem formatXYN_mask (op : Nibble) (x y : Reg) (n : Nibble) : formatXYN op x y n &&& 0xF000#16 = formatXYN op 0#4 0#4 0#4 := by
  rw [show (0xF000#16 : Word) = formatXYN 0xF#4 0#4 0#4 0#4 by decide, formatXYN_and, BitVec.and_zero, BitVec.and_zero, BitVec.and_zero,
    show op &&& 0xF#4 = op from BitVec.and_allOnes]

/-! ## RowMatch: the word of an instruction selects its row of the opcode map (30_encoding rule R75) -/

/-- The row is one of the map's 34, and the instruction's word under the row's mask is the row's match value. -/
def RowMatch.Statement (i : Instr) : Prop := i.row ∈ opcodeMap ∧ encode i &&& i.row.mask = i.row.value

theorem RowMatch.cls : RowMatch.Statement .cls := ⟨by decide, by decide⟩
theorem RowMatch.ret : RowMatch.Statement .ret := ⟨by decide, by decide⟩
theorem RowMatch.jp (nnn : Addr12) : RowMatch.Statement (.jp nnn) :=
  ⟨by simp [opcodeMap, Instr.row], (formatA_mask _ nnn).trans rfl⟩
theorem RowMatch.call (nnn : Addr12) : RowMatch.Statement (.call nnn) :=
  ⟨by simp [opcodeMap, Instr.row], (formatA_mask _ nnn).trans rfl⟩
theorem RowMatch.seByte (x : Reg) (nn : Byte) : RowMatch.Statement (.seByte x nn) :=
  ⟨by simp [opcodeMap, Instr.row], (formatXB_mask _ x nn).trans rfl⟩
theorem RowMatch.sneByte (x : Reg) (nn : Byte) : RowMatch.Statement (.sneByte x nn) :=
  ⟨by simp [opcodeMap, Instr.row], (formatXB_mask _ x nn).trans rfl⟩
theorem RowMatch.seReg (x y : Reg) : RowMatch.Statement (.seReg x y) :=
  ⟨by simp [opcodeMap, Instr.row], (formatXYS_mask _ x y _).trans rfl⟩
theorem RowMatch.ldByte (x : Reg) (nn : Byte) : RowMatch.Statement (.ldByte x nn) :=
  ⟨by simp [opcodeMap, Instr.row], (formatXB_mask _ x nn).trans rfl⟩
theorem RowMatch.addByte (x : Reg) (nn : Byte) : RowMatch.Statement (.addByte x nn) :=
  ⟨by simp [opcodeMap, Instr.row], (formatXB_mask _ x nn).trans rfl⟩
theorem RowMatch.ldReg (x y : Reg) : RowMatch.Statement (.ldReg x y) :=
  ⟨by simp [opcodeMap, Instr.row], (formatXYS_mask _ x y _).trans rfl⟩
theorem RowMatch.orReg (x y : Reg) : RowMatch.Statement (.orReg x y) :=
  ⟨by simp [opcodeMap, Instr.row], (formatXYS_mask _ x y _).trans rfl⟩
theorem RowMatch.andReg (x y : Reg) : RowMatch.Statement (.andReg x y) :=
  ⟨by simp [opcodeMap, Instr.row], (formatXYS_mask _ x y _).trans rfl⟩
theorem RowMatch.xorReg (x y : Reg) : RowMatch.Statement (.xorReg x y) :=
  ⟨by simp [opcodeMap, Instr.row], (formatXYS_mask _ x y _).trans rfl⟩
theorem RowMatch.addReg (x y : Reg) : RowMatch.Statement (.addReg x y) :=
  ⟨by simp [opcodeMap, Instr.row], (formatXYS_mask _ x y _).trans rfl⟩
theorem RowMatch.sub (x y : Reg) : RowMatch.Statement (.sub x y) :=
  ⟨by simp [opcodeMap, Instr.row], (formatXYS_mask _ x y _).trans rfl⟩
theorem RowMatch.shr (x y : Reg) : RowMatch.Statement (.shr x y) :=
  ⟨by simp [opcodeMap, Instr.row], (formatXYS_mask _ x y _).trans rfl⟩
theorem RowMatch.subn (x y : Reg) : RowMatch.Statement (.subn x y) :=
  ⟨by simp [opcodeMap, Instr.row], (formatXYS_mask _ x y _).trans rfl⟩
theorem RowMatch.shl (x y : Reg) : RowMatch.Statement (.shl x y) :=
  ⟨by simp [opcodeMap, Instr.row], (formatXYS_mask _ x y _).trans rfl⟩
theorem RowMatch.sneReg (x y : Reg) : RowMatch.Statement (.sneReg x y) :=
  ⟨by simp [opcodeMap, Instr.row], (formatXYS_mask _ x y _).trans rfl⟩
theorem RowMatch.ldI (nnn : Addr12) : RowMatch.Statement (.ldI nnn) :=
  ⟨by simp [opcodeMap, Instr.row], (formatA_mask _ nnn).trans rfl⟩
theorem RowMatch.jpV0 (nnn : Addr12) : RowMatch.Statement (.jpV0 nnn) :=
  ⟨by simp [opcodeMap, Instr.row], (formatA_mask _ nnn).trans rfl⟩
theorem RowMatch.rnd (x : Reg) (nn : Byte) : RowMatch.Statement (.rnd x nn) :=
  ⟨by simp [opcodeMap, Instr.row], (formatXB_mask _ x nn).trans rfl⟩
theorem RowMatch.drw (x y : Reg) (n : Nibble) : RowMatch.Statement (.drw x y n) :=
  ⟨by simp [opcodeMap, Instr.row], (formatXYN_mask _ x y n).trans rfl⟩
theorem RowMatch.skp (x : Reg) : RowMatch.Statement (.skp x) :=
  ⟨by simp [opcodeMap, Instr.row], (formatXS_mask _ x _).trans rfl⟩
theorem RowMatch.sknp (x : Reg) : RowMatch.Statement (.sknp x) :=
  ⟨by simp [opcodeMap, Instr.row], (formatXS_mask _ x _).trans rfl⟩
theorem RowMatch.ldVxDt (x : Reg) : RowMatch.Statement (.ldVxDt x) :=
  ⟨by simp [opcodeMap, Instr.row], (formatXS_mask _ x _).trans rfl⟩
theorem RowMatch.ldVxK (x : Reg) : RowMatch.Statement (.ldVxK x) :=
  ⟨by simp [opcodeMap, Instr.row], (formatXS_mask _ x _).trans rfl⟩
theorem RowMatch.ldDtVx (x : Reg) : RowMatch.Statement (.ldDtVx x) :=
  ⟨by simp [opcodeMap, Instr.row], (formatXS_mask _ x _).trans rfl⟩
theorem RowMatch.ldStVx (x : Reg) : RowMatch.Statement (.ldStVx x) :=
  ⟨by simp [opcodeMap, Instr.row], (formatXS_mask _ x _).trans rfl⟩
theorem RowMatch.addI (x : Reg) : RowMatch.Statement (.addI x) :=
  ⟨by simp [opcodeMap, Instr.row], (formatXS_mask _ x _).trans rfl⟩
theorem RowMatch.ldF (x : Reg) : RowMatch.Statement (.ldF x) :=
  ⟨by simp [opcodeMap, Instr.row], (formatXS_mask _ x _).trans rfl⟩
theorem RowMatch.ldB (x : Reg) : RowMatch.Statement (.ldB x) :=
  ⟨by simp [opcodeMap, Instr.row], (formatXS_mask _ x _).trans rfl⟩
theorem RowMatch.storeRegs (x : Reg) : RowMatch.Statement (.storeRegs x) :=
  ⟨by simp [opcodeMap, Instr.row], (formatXS_mask _ x _).trans rfl⟩
theorem RowMatch.loadRegs (x : Reg) : RowMatch.Statement (.loadRegs x) :=
  ⟨by simp [opcodeMap, Instr.row], (formatXS_mask _ x _).trans rfl⟩

/-- Every instruction's word selects its row. -/
theorem rowMatch_all (i : Instr) : RowMatch.Statement i := by
  cases i with
  | cls => exact RowMatch.cls
  | ret => exact RowMatch.ret
  | jp nnn => exact RowMatch.jp nnn
  | call nnn => exact RowMatch.call nnn
  | seByte x nn => exact RowMatch.seByte x nn
  | sneByte x nn => exact RowMatch.sneByte x nn
  | seReg x y => exact RowMatch.seReg x y
  | ldByte x nn => exact RowMatch.ldByte x nn
  | addByte x nn => exact RowMatch.addByte x nn
  | ldReg x y => exact RowMatch.ldReg x y
  | orReg x y => exact RowMatch.orReg x y
  | andReg x y => exact RowMatch.andReg x y
  | xorReg x y => exact RowMatch.xorReg x y
  | addReg x y => exact RowMatch.addReg x y
  | sub x y => exact RowMatch.sub x y
  | shr x y => exact RowMatch.shr x y
  | subn x y => exact RowMatch.subn x y
  | shl x y => exact RowMatch.shl x y
  | sneReg x y => exact RowMatch.sneReg x y
  | ldI nnn => exact RowMatch.ldI nnn
  | jpV0 nnn => exact RowMatch.jpV0 nnn
  | rnd x nn => exact RowMatch.rnd x nn
  | drw x y n => exact RowMatch.drw x y n
  | skp x => exact RowMatch.skp x
  | sknp x => exact RowMatch.sknp x
  | ldVxDt x => exact RowMatch.ldVxDt x
  | ldVxK x => exact RowMatch.ldVxK x
  | ldDtVx x => exact RowMatch.ldDtVx x
  | ldStVx x => exact RowMatch.ldStVx x
  | addI x => exact RowMatch.addI x
  | ldF x => exact RowMatch.ldF x
  | ldB x => exact RowMatch.ldB x
  | storeRegs x => exact RowMatch.storeRegs x
  | loadRegs x => exact RowMatch.loadRegs x

end Sys2Proof.Laws
end

