-- ==== Sys2Proof/Tests/Slice0.lean ====
section
/-! SUPPORT. Checks of our own work: WellFormed, decoding by words written out from the spec, one step per vector of spec/95_test_vectors.md
(E and V numbers name its rows), the ports, and for each statement with hypotheses a state and operands that meet them. -/

namespace Sys2Proof.Tests

open Sys2Proof Sys2Proof.Machine

/-! ## Small states -/

/-- `s` fetching from `a`. -/
def fetchAt (a : Word) (s : State) : State := { s with pc := a }

/-- `s` with the word `w` where it fetches. -/
def running (w : Nat) (s : State) : State := s.withFetchWord 16 w

/-- What a step leaves satisfies `p`. -/
def after (s : State) (p : State → Bool) : Bool :=
  match step s with
  | .next t => p t
  | .fault _ => false
  | .refused _ => false

/-- A step of word `w` on `s` leaves what satisfies `p`. -/
def stepOf (w : Nat) (s : State) (p : State → Bool) : Bool := after (running w s) p

/-- A step of word `w` on `s` sets the given fault record and keeps PC. -/
def faults (w : Nat) (s : State) (code : FaultCode) (addr : Option Nat) : Bool :=
  stepOf w s fun t => t.fault == some { code := code, pc := s.pc, word := some (BitVec.ofNat 16 w), addr := addr } && t.pc == s.pc

/-- Reset with V1 and V2 set: the start of the arithmetic vectors. -/
def xy (x y : Byte) : State := (State.reset.setV 1 x).setV 2 y

/-- Reset with I set. -/
def atI (a : Word) : State := State.reset.setI a

/-- Reset with one key pressed. -/
def pressed (k : Nat) : State := (State.reset.setKey k true).1

/-- The default configuration with another STACK_LIMIT, SHIFT_SOURCE, SPRITE_EDGE or RNG. -/
def withLimit (n : Nat) : Config := { defaultConfig with stackLimit := .bounded n }
def shiftsVy : Config := { defaultConfig with shiftSource := .vy }
def wraps : Config := { defaultConfig with spriteEdge := .wrap }
def draws (bytes : List Byte) : Config := { defaultConfig with rngScript := bytes }

/-! ## WellFormed -/

/-- STACK_LIMIT = 0 is refused: R9 asks for L >= 1. -/
theorem test_stackLimit_zero_refused : (withLimit 0).wellFormed = false := by decide
theorem test_stackLimit_one_accepted : (withLimit 1).wellFormed = true := by decide

/-- R9's condition on the font's place refuses a base of 4017, and 4016 is the last that fits. -/
theorem test_fontBase_checked : fontBaseFits 0xFB1 = false ∧ fontBaseFits 0xFB0 = true ∧ fontBaseFits fontBase = true := by decide

/-- An instruction has no ill-formed term: every value of every field is legal (R73), the greatest ones too. -/
theorem test_instr_wellFormed :
    Instr.wellFormed (.drw 0xF 0xF 0xF) = true ∧ Instr.wellFormed (.jp 0xFFF) = true ∧ Instr.wellFormed (.rnd 0xF 0xFF) = true := by decide

/-! ## Decoding: a word written out for every constructor (R75) -/

theorem test_decode_flow :
    decode 0x00EE = .ok .ret ∧ decode 0x1234 = .ok (.jp 0x234) ∧ decode 0x2ABC = .ok (.call 0xABC) ∧
    decode 0x3A12 = .ok (.seByte 0xA 0x12) ∧ decode 0x4B34 = .ok (.sneByte 0xB 0x34) ∧ decode 0x5CD0 = .ok (.seReg 0xC 0xD) ∧
    decode 0x9EF0 = .ok (.sneReg 0xE 0xF) ∧ decode 0xBFED = .ok (.jpV0 0xFED) := by decide

theorem test_decode_alu :
    decode 0x6A2F = .ok (.ldByte 0xA 0x2F) ∧ decode 0x7B01 = .ok (.addByte 0xB 0x01) ∧ decode 0x8120 = .ok (.ldReg 1 2) ∧
    decode 0x8341 = .ok (.orReg 3 4) ∧ decode 0x8562 = .ok (.andReg 5 6) ∧ decode 0x8783 = .ok (.xorReg 7 8) ∧
    decode 0x89A4 = .ok (.addReg 9 0xA) ∧ decode 0x8BC5 = .ok (.sub 0xB 0xC) ∧ decode 0x8DE6 = .ok (.shr 0xD 0xE) ∧
    decode 0x8F07 = .ok (.subn 0xF 0) ∧ decode 0x812E = .ok (.shl 1 2) ∧ decode 0xC5FE = .ok (.rnd 5 0xFE) := by decide

theorem test_decode_index_memory :
    decode 0xA2F0 = .ok (.ldI 0x2F0) ∧ decode 0xF51E = .ok (.addI 5) ∧ decode 0xF629 = .ok (.ldF 6) ∧
    decode 0xF733 = .ok (.ldB 7) ∧ decode 0xF855 = .ok (.storeRegs 8) ∧ decode 0xF965 = .ok (.loadRegs 9) := by decide

theorem test_decode_display : decode 0x00E0 = .ok .cls ∧ decode 0xDABC = .ok (.drw 0xA 0xB 0xC) := by decide

theorem test_decode_keypad_timers :
    decode 0xE19E = .ok (.skp 1) ∧ decode 0xE2A1 = .ok (.sknp 2) ∧ decode 0xF307 = .ok (.ldVxDt 3) ∧
    decode 0xF40A = .ok (.ldVxK 4) ∧ decode 0xF515 = .ok (.ldDtVx 5) ∧ decode 0xF618 = .ok (.ldStVx 6) := by decide

/-- V4 to V8: words of no row, refused by name. -/
theorem test_decode_refuses :
    [0x5121, 0x0000, 0x01E0, 0x8008, 0x800F, 0xE000, 0xF000, 0xF0FF, 0x9121].all
      (fun w => decode w == .error (.unimplementedOpcode w)) = true := by decide

/-- Two bytes are taken, high byte first (V1), and one byte is too few. -/
theorem test_decodeBytes :
    decodeBytes [0x12, 0x34, 0x56] = .ok (.jp 0x234, [0x56]) ∧ decodeBytes [0x12] = .error .tooFewBytes := by decide

theorem test_encode_back : encode (.drw 0xA 0xB 0xC) = 0xDABC ∧ encode (.sknp 2) = 0xE2A1 ∧ encode (.sub 0xB 0xC) = 0x8BC5 := by decide

/-- The table's one word per row, and what the host places for it. -/
theorem test_table_word : decodeTableWord 16 0xD125 = some (.drw 1 2 5) ∧ decodeTableWord 16 0x5121 = none := by decide
theorem test_withFetchWord_runs : after (State.reset.withFetchWord 16 0x6A2F) (fun t => t.getV 0xA == 0x2F) = true := by decide

/-! ## Fetch (30_encoding) -/

/-- V2: fetching from 0xFFE is legal. -/
theorem test_fetch_last_word : stepOf 0x1FFE (fetchAt 0xFFE State.reset) (fun t => t.pc == 0xFFE && t.fault == none) = true := by decide

/-- V3: fetching from 0xFFF faults with the address 0x1000 and no word. -/
theorem test_fetch_past_end : after (fetchAt 0xFFF State.reset)
    (fun t => t.fault == some ⟨.memoryOutOfBounds, 0xFFF, none, some 0x1000⟩ && t.pc == 0xFFF) = true := by decide

/-- V5: 0NNN is not modelled as a call to native code; it is unrecognized. -/
theorem test_zero_word_faults : faults 0x0000 State.reset .unimplementedOpcode none = true := by decide

/-- V11: an odd PC. -/
theorem test_fetch_odd : stepOf 0x6007 (fetchAt 0x201 State.reset) (fun t => t.getV 0 == 7 && t.pc == 0x203) = true := by decide

/-! ## Control flow -/

/-- V12, V13. -/
theorem test_ret_empty : faults 0x00EE State.reset .stackUnderflow none = true := by decide
theorem test_ret : stepOf 0x00EE (fetchAt 0x308 { State.reset with stack := [0x204] })
    (fun t => t.pc == 0x204 && t.stack == []) = true := by decide

/-- V14. -/
theorem test_jp : stepOf 0x1234 State.reset (fun t => t.pc == 0x234) = true := by decide

/-- V16, and the third step of V17. -/
theorem test_call : stepOf 0x2300 State.reset (fun t => t.pc == 0x300 && t.stack == [0x202]) = true := by decide
theorem test_call_full :
    faults 0x2200 { State.construct (withLimit 2) with stack := [0x202, 0x202] } .stackOverflow none = true := by decide

/-- V20, V19. -/
theorem test_jpV0 : stepOf 0xBF00 (State.reset.setV 0 0xFF) (fun t => t.pc == 0xFFF && t.fault == none) = true := by decide
theorem test_jpV0_past_end :
    faults 0xBF01 (fetchAt 0x202 (State.reset.setV 0 0xFF)) .memoryOutOfBounds (some 0x1000) = true := by decide

/-- V21 to V29. -/
theorem test_seByte : stepOf 0x3312 (State.reset.setV 3 0x12) (fun t => t.pc == 0x204) = true := by decide
theorem test_seByte_differs : stepOf 0x3312 (State.reset.setV 3 0x13) (fun t => t.pc == 0x202) = true := by decide
theorem test_sneByte : stepOf 0x4312 (State.reset.setV 3 0x13) (fun t => t.pc == 0x204) = true := by decide
theorem test_sneByte_equal : stepOf 0x4312 (State.reset.setV 3 0x12) (fun t => t.pc == 0x202) = true := by decide
theorem test_seReg : stepOf 0x5120 (xy 7 7) (fun t => t.pc == 0x204) = true := by decide
theorem test_seReg_differs : stepOf 0x5120 (xy 7 8) (fun t => t.pc == 0x202) = true := by decide
theorem test_sneReg : stepOf 0x9120 (xy 7 8) (fun t => t.pc == 0x204) = true := by decide
theorem test_sneReg_self : stepOf 0x9110 (xy 7 8) (fun t => t.pc == 0x202) = true := by decide

/-! ## Loads, arithmetic and logic -/

/-- E1. -/
theorem test_ldByte : stepOf 0x6F00 (State.reset.setV VF 1) (fun t => t.getV VF == 0) = true := by decide

/-- V32: a wrap that leaves VF alone. -/
theorem test_addByte : stepOf 0x71FF (xy 0x01 0) (fun t => t.getV 1 == 0 && t.getV VF == 0) = true := by decide

/-- V33 to V36. -/
theorem test_ldReg : stepOf 0x8120 (xy 0x11 0x22) (fun t => t.getV 1 == 0x22 && t.getV 2 == 0x22) = true := by decide
theorem test_orReg : stepOf 0x8121 (xy 0x0F 0xF0) (fun t => t.getV 1 == 0xFF && t.getV VF == 0) = true := by decide
theorem test_andReg : stepOf 0x8122 (xy 0x3C 0x0F) (fun t => t.getV 1 == 0x0C) = true := by decide
theorem test_xorReg : stepOf 0x8123 (xy 0x3C 0x0F) (fun t => t.getV 1 == 0x33) = true := by decide

/-- V38; V52: with X = 15 the flag replaces the sum. -/
theorem test_addReg : stepOf 0x8124 (xy 0xFF 0x01) (fun t => t.getV 1 == 0x00 && t.getV VF == 1) = true := by decide
theorem test_addReg_vf :
    stepOf 0x8F24 ((xy 0 0x20).setV VF 0xF0) (fun t => t.getV VF == 1) = true := by decide

/-- V41; V59: Y = 15 takes the old VF as an operand. -/
theorem test_sub : stepOf 0x8125 (xy 0x00 0x01) (fun t => t.getV 1 == 0xFF && t.getV VF == 0) = true := by decide
theorem test_sub_vf_operand :
    stepOf 0x81F5 ((xy 0x05 0).setV VF 0x03) (fun t => t.getV 1 == 0x02 && t.getV VF == 1) = true := by decide

/-- V44, V45. -/
theorem test_subn_borrow : stepOf 0x8127 (xy 0x01 0x00) (fun t => t.getV 1 == 0xFF && t.getV VF == 0) = true := by decide
theorem test_subn : stepOf 0x8127 (xy 0x05 0x07) (fun t => t.getV 1 == 0x02 && t.getV VF == 1) = true := by decide

/-- V47; V61: SHIFT_SOURCE = VY. -/
theorem test_shr : stepOf 0x8126 (xy 0xFF 0) (fun t => t.getV 1 == 0x7F && t.getV VF == 1) = true := by decide
theorem test_shr_vy : stepOf 0x8016 (((State.construct shiftsVy).setV 0 0x05).setV 1 0x81)
    (fun t => t.getV 0 == 0x40 && t.getV VF == 1 && t.getV 1 == 0x81) = true := by decide

/-- V51; V62: SHIFT_SOURCE = VY. -/
theorem test_shl : stepOf 0x812E (xy 0x41 0) (fun t => t.getV 1 == 0x82 && t.getV VF == 0) = true := by decide
theorem test_shl_vy : stepOf 0x801E (((State.construct shiftsVy).setV 0 0x40).setV 1 0x81)
    (fun t => t.getV 0 == 0x02 && t.getV VF == 1) = true := by decide

/-- V63, V64. -/
theorem test_rnd : stepOf 0xC30F (State.construct (draws [0xA5])) (fun t => t.getV 3 == 0x05) = true := by decide
theorem test_rnd_consumes :
    stepOf 0xC300 (State.construct (draws [0xA5])) (fun t => t.getV 3 == 0x00 && t.rngDraws == 1) = true := by decide

/-! ## Index register and memory -/

/-- V67. -/
theorem test_ldI : stepOf 0xAFFF State.reset (fun t => t.i == 0xFFF && t.fault == none) = true := by decide

/-- V70, V69. -/
theorem test_addI : stepOf 0xF01E ((atI 0xF00).setV 0 0xFF) (fun t => t.i == 0xFFF && t.getV VF == 0) = true := by decide
theorem test_addI_past_end : faults 0xF01E ((atI 0xFFF).setV 0 1) .memoryOutOfBounds (some 0x1000) = true := by decide

/-- V71, its third and last value. -/
theorem test_ldF : stepOf 0xF229 (xy 0 0x0F) (fun t => t.i == 0x09B) = true := by decide
theorem test_ldF_no_mask : stepOf 0xF229 (xy 0 0xFF) (fun t => t.i == 0x54B && t.fault == none) = true := by decide

/-- E5, V73. -/
theorem test_ldB : stepOf 0xF033 ((atI 0x300).setV 0 234)
    (fun t => t.readByte 0x300 == 2 && t.readByte 0x301 == 3 && t.readByte 0x302 == 4 && t.i == 0x300) = true := by decide
theorem test_ldB_past_end : faults 0xF033 (atI 0xFFE) .memoryOutOfBounds (some 0x1000) = true := by decide

/-- V75, V77. -/
theorem test_storeRegs : stepOf 0xF255 (((atI 0x400).setV 0 1).setV 2 3)
    (fun t => t.readByte 0x400 == 1 && t.readByte 0x401 == 0 && t.readByte 0x402 == 3 && t.i == 0x400) = true := by decide
theorem test_storeRegs_past_end : faults 0xF455 (atI 0xFFC) .memoryOutOfBounds (some 0x1000) = true := by decide

/-- V79's shape on the font's first bytes: V0 to V2 are loaded and V3 is not; V77's range for the load. -/
theorem test_loadRegs : stepOf 0xF265 ((atI 0x051).setV 3 9)
    (fun t => t.getV 0 == 0x90 && t.getV 1 == 0x90 && t.getV 2 == 0x90 && t.getV 3 == 9 && t.i == 0x051) = true := by decide
theorem test_loadRegs_past_end : faults 0xF465 (atI 0xFFC) .memoryOutOfBounds (some 0x1000) = true := by decide

/-- V80: the font can be overwritten, and writing a byte of the reset image back leaves no cell. -/
theorem test_font_writable : ((State.reset.writeByte 0x050 0xAA).readByte 0x050 = 0xAA) ∧
    (State.reset.writeByte 0x050 0xF0).mem = [] ∧ ((State.reset.writeByte 0x050 0xAA).writeByte 0x050 0xF0).mem = [] := by decide

/-! ## Display -/

/-- The sprite of V81 and V82 at 0x300. -/
def corner (c : Config) : State :=
  ((((State.construct c).writeBytes 0x300 [0xFF, 0x81, 0xFF]).setI 0x300).setV 0 62).setV 1 30

/-- V81, clipped at the right and bottom edges; V82, wrapped. -/
theorem test_drw_edges :
    stepOf 0xD013 (corner defaultConfig)
      (fun t => t.pixel 62 30 && t.pixel 63 30 && t.pixel 62 31 && !t.pixel 63 31 && !t.pixel 0 30 && !t.pixel 62 0 && t.getV VF == 0) =
      true ∧
    stepOf 0xD013 (corner wraps)
      (fun t => t.pixel 62 30 && t.pixel 5 30 && !t.pixel 6 30 && t.pixel 5 31 && !t.pixel 0 31 && t.pixel 62 0 && t.pixel 0 0) =
      true := by decide

/-- V89 for the collision; V87 for the range check. -/
def oneLit : State := { (State.reset.writeByte 0x300 0xC0).setI 0x300 with fb := Vector.replicate 32 1#64 }
theorem test_drw_collision :
    stepOf 0xD011 oneLit (fun t => !t.pixel 0 0 && t.pixel 1 0 && t.pixel 0 1 && t.getV VF == 1) = true ∧
    faults 0xD015 ((atI 0xFFC).setV 1 30) .memoryOutOfBounds (some 0x1000) = true := by decide

/-- V90. -/
theorem test_cls : stepOf 0x00E0 (oneLit.setV VF 1) (fun t => !t.pixel 0 0 && !t.pixel 0 31 && t.getV VF == 1) = true := by decide

/-! ## Keypad and timers -/

/-- E7; V91, V92. -/
theorem test_skp : stepOf 0xE19E ((pressed 5).setV 1 5) (fun t => t.pc == 0x204) = true := by decide
theorem test_skp_no_key : faults 0xE09E ((pressed 0).setV 0 0x10) .invalidKeyIndex none = true := by decide
theorem test_sknp : stepOf 0xE1A1 ((pressed 5).setV 1 5) (fun t => t.pc == 0x202) = true := by decide
theorem test_sknp_no_key : faults 0xE0A1 (State.reset.setV 0 0xFF) .invalidKeyIndex none = true := by decide

/-- V94, V93. -/
theorem test_ldVxK_waits : stepOf 0xF50A State.reset (fun t => t.pc == 0x200 && t.getV 5 == 0 && t.fault == none) = true := by decide
theorem test_ldVxK : stepOf 0xF50A ((pressed 9).setKey 3 true).1 (fun t => t.getV 5 == 3 && t.pc == 0x202) = true := by decide

/-- V96, V97, V98. -/
theorem test_ldVxDt : stepOf 0xF307 (State.reset.setDt 0x3C) (fun t => t.getV 3 == 0x3C && t.dt == 0x3C) = true := by decide
theorem test_ldDtVx : stepOf 0xF315 (State.reset.setV 3 0x3C) (fun t => t.dt == 0x3C && t.st == 0) = true := by decide
theorem test_ldStVx : stepOf 0xF318 (State.reset.setV 3 0x02) (fun t => t.st == 2 && t.dt == 0 && t.soundOn) = true := by decide

/-! ## Ports -/

/-- V99, V100. -/
theorem test_tick_clamps : (State.reset.tick).dt = 0 ∧ (State.reset.tick).st = 0 := by decide
theorem test_tick : ((State.reset.setDt 1).setSt 5).tick.dt = 0 ∧ ((State.reset.setDt 1).setSt 5).tick.st = 4 := by decide

/-- V101, V102. -/
theorem test_key : State.reset.setKey 16 true = (State.reset, .invalidKeyIndex) ∧ (pressed 7).key 7 = true ∧ (pressed 7).key 6 = false := by
  decide

/-- V103, V105, V106. -/
theorem test_load :
    (State.reset.load (List.replicate 16 1) 0xFF1).2 = .romTooLarge ∧ State.reset.load [] 0x1000 = (State.reset, .ok) ∧
    (State.reset.load [1, 2, 3] 0x300).1.readByte 0x302 = 3 ∧ (State.reset.load [1, 2, 3] 0x300).1.pc = 0x200 := by decide

/-- R214: the bit of (col, row) is at col + 64 * row. -/
theorem test_frame_bit : (State.setScreen State.reset (Screen.flip State.reset.fb 5 2)).frameBit (5 + 64 * 2) = true := by decide

/-- R240: a freshly constructed core. -/
theorem test_reset : State.reset.pc = 0x200 ∧ State.reset.readByte 0x050 = 0xF0 ∧ State.reset.readByte 0x09F = 0x80 ∧
    State.reset.readByte 0x04F = 0 ∧ State.reset.readByte 0x0A0 = 0 := by decide

/-! ## Witnesses: the hypotheses of each statement hold together somewhere, each clause at its boundary -/

/-- The hypotheses of a statement that speaks of a step's or an instruction's next state. -/
def nextState (o : Host.Outcome State Fault Refusal) : Option State :=
  match o with
  | .next t => some t
  | .fault _ => none
  | .refused _ => none

/-- The state a given outcome goes on to; reset where there is none, which the theorems below rule out. -/
def nextOf (o : Host.Outcome State Fault Refusal) : State := (nextState o).getD State.reset

theorem witness_DecodeOfEncodeIsIdentity : Instr.wellFormed (.drw 0xF 0 0xF) = true ∧ Instr.wellFormed .cls = true := by decide

theorem witness_EncodeOfDecodeIsIdentity :
    decode 0x00E0 = .ok .cls ∧ decode 0x8FFE = .ok (.shl 0xF 0xF) ∧ decode 0xFF65 = .ok (.loadRegs 0xF) := by decide

theorem witness_DecodeFollowsOpcodeMap :
    decode 0xDABC = .ok (.drw 0xA 0xB 0xC) ∧
    (∃ r ∈ opcodeMap, (0xFF65 : Word) &&& r.mask = r.value) ∧
    (∀ r ∈ opcodeMap, (0x00E1 : Word) &&& r.mask ≠ r.value) ∧ (∀ r ∈ opcodeMap, (0x8008 : Word) &&& r.mask ≠ r.value) := by decide

theorem witness_OpcodeRowsAreDisjoint :
    ∃ r ∈ opcodeMap, ∃ r' ∈ opcodeMap, (0x00E0 : Word) &&& r.mask = r.value ∧ (0x00E0 : Word) &&& r'.mask = r'.value := by decide

/-- Each class of the list has a refused word and, next to it, a word that is not. -/
theorem witness_UnrecognizedWordsByClass :
    [(0x00E1, 0x00E0), (0x5011, 0x5010), (0x9011, 0x9010), (0x8008, 0x8007), (0x800F, 0x800E), (0xE09F, 0xE09E), (0xF066, 0xF065)].all
      (fun p => decode p.1 == .error (.unimplementedOpcode p.1) && decode p.2 != .error (.unimplementedOpcode p.2)) = true := by decide

/-- At reset's PC, and at the last PC a fetch can have. -/
theorem witness_StepRunsDecodedInstruction :
    [running 0x6A2F State.reset, running 0x6A2F (fetchAt 0xFFE State.reset)].all
      (fun s => s.fault == none && decide (s.pc.toNat + 1 < 4096) &&
        decode (wordOfBytes (s.readByte s.pc.toNat) (s.readByte (s.pc.toNat + 1))) == .ok (.ldByte 0xA 0x2F)) = true := by decide

/-- The fetch clause at PC = 0xFFF and beyond, the decode clause at PC = 0xFFE. -/
theorem witness_StepFetchAndDecodeFaults :
    State.reset.fault = none ∧ 4096 ≤ (fetchAt 0xFFF State.reset).pc.toNat + 1 ∧ 4096 ≤ (fetchAt 0x1002 State.reset).pc.toNat + 1 ∧
    (fetchAt 0xFFE State.reset).pc.toNat + 1 < 4096 ∧
    decode (wordOfBytes ((fetchAt 0xFFE State.reset).readByte 0xFFE) ((fetchAt 0xFFE State.reset).readByte 0xFFF)) =
      .error (.unimplementedOpcode 0x0000) := by decide

/-- A faulted core, as V12 leaves it. -/
def faulted : State := State.reset.withFault .stackUnderflow (some 0x00EE) none
theorem witness_StepWhileFaultedChangesNothing : faulted.fault ≠ none ∧ faulted.fault.map (·.code) = some .stackUnderflow := by decide

/-- A step that ends with no fault set, and one that ends with one. -/
theorem witness_EveryStepIsAnswered :
    (nextState (step (running 0x6A2F State.reset))).map (·.fault) = some none ∧
    ((nextState (step (running 0x00EE State.reset))).map (fun t => t.fault.map (·.code))) = some (some .stackUnderflow) := by decide

theorem witness_FaultEntryIsPrecise :
    State.reset.fault = none ∧ (nextState (step State.reset)).isSome = true ∧ (nextOf (step State.reset)).fault ≠ none := by decide

/-- One of each kind an instruction can raise. -/
theorem witness_InstructionsRaiseOnlyTheirFault :
    [(Instr.ret, State.reset), (.call 0x300, { State.construct (withLimit 1) with stack := [0x202] }), (.jpV0 0xFFF, State.reset.setV 0 1),
      (.skp 0, State.reset.setV 0 16)].all
      (fun p => p.2.fault == none && (nextState (exec p.1 p.2)).isSome && (nextOf (exec p.1 p.2)).fault.isSome) = true := by decide

theorem witness_ConstructionMeetsInvariant :
    defaultConfig.wellFormed = true ∧ (withLimit 1).wellFormed = true ∧ shiftsVy.wellFormed = true := by decide

/-- A core at the edges of the invariant: I and PC at their greatest, a full stack, a listed byte, a fault record. -/
def edge : State :=
  { State.construct (withLimit 1) with
    i := 0xFFF, pc := 0x1002, stack := [0x1000], mem := [(0xFFF, 1)],
    fault := some ⟨.memoryOutOfBounds, 0x1002, none, some 0x1002⟩ }

theorem edge_invariant : Invariant edge :=
  ⟨by decide, by decide, by decide, by simp [edge], by decide, by decide, by decide⟩

theorem witness_StepKeepsInvariant : Invariant edge ∧ (nextState (step edge)).isSome = true := ⟨edge_invariant, by decide⟩

theorem witness_StepKeepsInvariant_running :
    Invariant (running 0x2300 (fetchAt 0xFFE (State.construct (withLimit 1)))) ∧
    (nextState (step (running 0x2300 (fetchAt 0xFFE (State.construct (withLimit 1)))))).map (·.stack) = some [0x1000] := by
  exact ⟨⟨by decide, by decide, by decide, fun a h => absurd h (List.not_mem_nil (a := a)), by decide, by decide, by decide⟩, by decide⟩

theorem witness_HostRequestsKeepInvariant : Invariant edge ∧ ∃ t as, serveAll edge [.tick, .step, .load [1] 0x300, .status] = .next (t, as) :=
  ⟨edge_invariant, _, _, rfl⟩

theorem witness_ConfigurationNeverChanges :
    (∃ t a, serve State.reset .step = .next (t, a)) ∧ (∃ t a, serve State.reset (.load [1] 0xFFF) = .next (t, a)) :=
  ⟨⟨_, _, rfl⟩, ⟨_, _, rfl⟩⟩

/-- DXYN: no rows at the end of memory, rows that just fit, rows that just do not. -/
theorem witness_DrawSpriteResult_range :
    (0 : Nibble) = 0#4 ∧ (atI 0xFFC).i.toNat + (4 : Nibble).toNat ≤ 4096 ∧
    (5 : Nibble) ≠ 0#4 ∧ 4096 < (atI 0xFFC).i.toNat + (5 : Nibble).toNat := by decide

/-- DXYN: a covered pixel that was lit; at the last row and column too. -/
theorem witness_DrawSpriteResult_collision : oneLit.covers 0 1 1 0 0 ∧ oneLit.pixel 0 0 = true :=
  ⟨⟨0, 0, by decide, by decide, by decide,
    show (oneLit.getV 0).toNat % 64 + 0 = 0 ∧ (oneLit.getV 1).toNat % 32 + 0 = 0 by decide⟩, by decide⟩

theorem witness_DrawSpriteResult_corner : (corner defaultConfig).covers 0 1 3 63 30 ∧ (corner defaultConfig).pixel 63 30 = false ∧
    (corner wraps).covers 0 1 3 5 0 :=
  ⟨⟨0, 1, by decide, by decide, by decide, show (62 : Byte).toNat % 64 + 1 = 63 ∧ (30 : Byte).toNat % 32 + 0 = 30 by decide⟩, by decide,
    ⟨2, 7, by decide, by decide, by decide,
      show ((62 : Byte).toNat % 64 + 7) % 64 = 5 ∧ ((30 : Byte).toNat % 32 + 2) % 32 = 0 by decide⟩⟩

/-- DXYN: nothing lit anywhere. -/
theorem witness_DrawSpriteResult_clear : ∀ col row, col < 64 → row < 32 → State.reset.pixel col row = false :=
  fun col row _ _ => State.construct_pixel defaultConfig col row

/-- The collision law: a draw that runs, and a second at the same place with the registers exchanged. -/
theorem witness_CollisionLaw :
    oneLit.fault = none ∧ (nextState (exec (.drw 0 1 1) oneLit)).map (·.fault) = some none ∧
    ((nextOf (exec (.drw 0 1 1) oneLit)).getV 1).toNat % 64 = (oneLit.getV 0).toNat % 64 ∧
    ((nextOf (exec (.drw 0 1 1) oneLit)).getV 0).toNat % 32 = (oneLit.getV 1).toNat % 32 ∧
    (nextState (exec (.drw 1 0 1) (nextOf (exec (.drw 0 1 1) oneLit)))).isSome = true := by decide

/-- Where R163's last sentence and R161 part (log 17): the one bit of the sprite falls on a lit pixel, so by R161's pseudocode the first
draw turns it off with VF = 1 and the second turns it on with VF = 0. -/
theorem witness_CollisionLaw_all_lit :
    let s := oneLit.writeByte 0x300 0x80
    let t := nextOf (exec (.drw 0 1 1) s)
    let u := nextOf (exec (.drw 0 1 1) t)
    t.pixel 0 0 = false ∧ t.getV VF = 1 ∧ u.pixel 0 0 = true ∧ u.getV VF = 0 := by decide

theorem witness_ReturnResult :
    ({ State.reset with stack := [0x1000] } : State).stack = 0x1000 :: [] ∧ State.reset.stack = [] := by decide

/-- CALL: unbounded, one entry below the limit, at the limit. -/
theorem witness_CallResult :
    State.reset.cfg.stackLimit ≠ .bounded State.reset.stack.length ∧
    (State.construct (withLimit 1)).cfg.stackLimit ≠ .bounded (State.construct (withLimit 1)).stack.length ∧
    edge.cfg.stackLimit = .bounded edge.stack.length := by decide

theorem witness_JumpWithOffsetResult :
    (0xF00 : Addr12).toNat + ((State.reset.setV 0 0xFF).getV 0#4).toNat = 4095 ∧
    (0xF01 : Addr12).toNat + ((State.reset.setV 0 0xFF).getV 0#4).toNat = 4096 := by decide

theorem witness_SkipOnRegisterResult : (1 : Nibble) ≠ 0#4 ∧ (0xF : Nibble) ≠ 0#4 ∧ ((5 : Nibble) = 0x5#4 ∨ (5 : Nibble) = 0x9#4) ∧
    ((9 : Nibble) = 0x5#4 ∨ (9 : Nibble) = 0x9#4) := by decide

/-- The additions and subtractions whose result goes to another register than VF. -/
theorem witness_AddAndSubtract : (0xE : Reg) ≠ VF ∧ (0 : Reg) ≠ VF := by decide

theorem witness_ShiftResult :
    (0x81 = match (State.reset.setV 1 0x81).cfg.shiftSource with
      | .vx => ((State.reset.setV 1 0x81).getV 1).toNat
      | .vy => ((State.reset.setV 1 0x81).getV 2).toNat) ∧
    (0x81 = match ((State.construct shiftsVy).setV 2 0x81).cfg.shiftSource with
      | .vx => (((State.construct shiftsVy).setV 2 0x81).getV 1).toNat
      | .vy => (((State.construct shiftsVy).setV 2 0x81).getV 2).toNat) := by decide

/-- The last scripted draw, and the first draw past the script. -/
theorem witness_RandomResult_scripted :
    ((h : 0 < (State.construct (draws [0xA5])).cfg.rngScript.length) → (0xA5 : Byte) = (State.construct (draws [0xA5])).cfg.rngScript[0]) ∧
    ((State.construct (draws [0xA5])).cfg.rngScript.length ≤ (State.construct (draws [0xA5])).rngDraws →
      (0xA5 : Byte) = Config.freeRandomByte (State.construct (draws [0xA5])).rngDraws) :=
  ⟨fun _ => rfl, fun h => absurd h (by decide)⟩

theorem witness_RandomResult_free :
    ((h : State.reset.rngDraws < State.reset.cfg.rngScript.length) →
      Config.freeRandomByte 0 = State.reset.cfg.rngScript[State.reset.rngDraws]) ∧
    (State.reset.cfg.rngScript.length ≤ State.reset.rngDraws → Config.freeRandomByte 0 = Config.freeRandomByte State.reset.rngDraws) :=
  ⟨fun h => absurd h (by decide), fun _ => rfl⟩

theorem witness_AddToIndexResult :
    ((atI 0xF00).setV 0 0xFF).i.toNat + (((atI 0xF00).setV 0 0xFF).getV 0).toNat = 4095 ∧
    ((atI 0xF01).setV 0 0xFF).i.toNat + (((atI 0xF01).setV 0 0xFF).getV 0).toNat = 4096 := by decide

theorem witness_StoreDigitsResult :
    Memory.wf (atI 0xFFD).cfg (atI 0xFFD).mem = true ∧ (atI 0xFFD).i.toNat + 2 = 4095 ∧ (atI 0xFFE).i.toNat + 2 = 4096 := by decide

theorem witness_StoreAndLoadRegistersResult :
    Memory.wf (atI 0xFFC).cfg (atI 0xFFC).mem = true ∧ (atI 0xFFC).i.toNat + (3 : Reg).toNat = 4095 ∧
    (atI 0xFFC).i.toNat + (4 : Reg).toNat = 4096 ∧ Memory.wf edge.cfg edge.mem = true ∧ edge.i.toNat + (0 : Reg).toNat < 4096 := by decide

theorem witness_SkipOnKeyResult :
    ((State.reset.setV 1 15).getV 1).toNat = (15 : Nibble).toNat ∧ 16 ≤ ((State.reset.setV 1 16).getV 1).toNat := by decide

/-- FX0A: no key; the lowest of two keys; the last key alone. -/
theorem witness_WaitForKeyResult :
    (∀ k, State.reset.key k = false) ∧
    (((pressed 9).setKey 3 true).1.key 3 = true ∧ ∀ j, ((pressed 9).setKey 3 true).1.key j = true → (3 : Nibble).toNat ≤ j.toNat) ∧
    ((pressed 15).key 15 = true ∧ ∀ j, (pressed 15).key j = true → (15 : Nibble).toNat ≤ j.toNat) := by decide

/-- KEY at the last index and the first that is none; LOAD that just fits and one byte more (V104, V103). -/
theorem witness_KeyPort_LoadPort :
    15 < 16 ∧ 16 ≤ 16 ∧ Memory.wf State.reset.cfg State.reset.mem = true ∧ 0xFF1 + (List.replicate 15 (1 : Byte)).length ≤ 4096 ∧
    4096 < 0xFF1 + (List.replicate 16 (1 : Byte)).length := by decide

theorem witness_FaultIsSticky : faulted.fault ≠ none ∧
    ∃ t as, serveAll faulted [.step, .tick, .key 1 true, .fb, .load [0] 0x200, .status, .step] = .next (t, as) :=
  ⟨by decide, _, _, rfl⟩

theorem witness_OnlyClearAndDrawChangeTheDisplay :
    (nextState (exec .cls oneLit)).isSome = true ∧ (nextOf (exec .cls oneLit)).fb ≠ oneLit.fb := by decide

theorem witness_OnlyCallAndReturnChangeTheStack :
    (nextState (exec (.call 0x300) State.reset)).isSome = true ∧ (nextOf (exec (.call 0x300) State.reset)).stack ≠ State.reset.stack ∧
    (nextState (exec .ret { edge with fault := none })).isSome = true ∧ (nextOf (exec .ret { edge with fault := none })).stack ≠ edge.stack := by
  decide

/-- A timer set by FX15 and by FX18, and a scripted random byte. -/
theorem witness_TimersKeysAndRandomSource :
    (nextOf (exec (.ldDtVx 0) (State.reset.setV 0 1))).dt ≠ State.reset.dt ∧
    (nextOf (exec (.ldStVx 0) (State.reset.setV 0 1))).st ≠ State.reset.st ∧
    (nextState (exec (.rnd 0 0xFF) (State.construct (draws [1])))).isSome = true ∧ (nextState (exec .cls State.reset)).isSome = true := by decide

theorem witness_RegistersChangeOnlyAsDestinations :
    (nextState (exec (.addReg 1 2) (xy 0xFF 0x02))).isSome = true ∧
    (nextOf (exec (.addReg 1 2) (xy 0xFF 0x02))).getV VF ≠ (xy 0xFF 0x02).getV VF := by decide

/-- The first byte of FX33's range and the last of FX55's, at the end of memory. -/
theorem witness_MemoryChangesOnlyByStores :
    (nextOf (exec (.ldB 0) ((atI 0x300).setV 0 234))).readByte 0x300 ≠ ((atI 0x300).setV 0 234).readByte 0x300 ∧
    (nextOf (exec (.storeRegs 1) ((atI 0xFFE).setV 1 7))).readByte 0xFFF ≠ ((atI 0xFFE).setV 1 7).readByte 0xFFF := by decide

theorem witness_CallThenReturnResumes :
    State.reset.fault = none ∧ (nextState (exec (.call 0x300) State.reset)).map (·.fault) = some none ∧
    (nextState (exec .ret (nextOf (exec (.call 0x300) State.reset)))).isSome = true := by decide

/-- The state between is the one the store left, with the registers cleared. -/
theorem witness_StoreThenLoadRestoresRegisters :
    let s := ((atI 0xFFE).setV 0 5).setV 1 6
    let t := nextOf (exec (.storeRegs 1) s)
    let u := (t.setV 0 0).setV 1 0
    Memory.wf s.cfg s.mem = true ∧ s.fault = none ∧ (nextState (exec (.storeRegs 1) s)).isSome = true ∧ t.fault = none ∧ u.fault = none ∧
      u.i = t.i ∧ (∀ a, u.readByte a = t.readByte a) ∧ (nextState (exec (.loadRegs 1) u)).isSome = true := by
  refine ⟨by decide, by decide, by decide, by decide, by decide, by decide, fun a => rfl, by decide⟩

/-- The program of P7: the word 0x1208 is stored at 0x208, where the next fetch is. -/
theorem witness_StoredBytesAreExecuted :
    let s := fetchAt 0x206 (((atI 0x208).setV 0 0x12).setV 1 0x08)
    let t := nextOf (exec (.storeRegs 1) s)
    Memory.wf s.cfg s.mem = true ∧ s.fault = none ∧ (nextState (exec (.storeRegs 1) s)).isSome = true ∧ t.fault = none ∧
      (0 : Reg).toNat + 1 ≤ (1 : Reg).toNat ∧ t.pc.toNat = s.i.toNat + (0 : Reg).toNat ∧
      decode (wordOfBytes (s.getV 0) (s.getV (0 + 1))) = .ok (.jp 0x208) := by decide

/-- V15, and FX0A with no key pressed. -/
theorem witness_SelfLoopsAreFixedPoints :
    [(running 0x1200 State.reset, Instr.jp 0x200), (running 0xF50A State.reset, .ldVxK 5)].all
      (fun p => p.1.fault == none && decide (p.1.pc.toNat + 1 < 4096) &&
        decode (wordOfBytes (p.1.readByte p.1.pc.toNat) (p.1.readByte (p.1.pc.toNat + 1))) == .ok p.2) = true ∧
    (0x200 : Addr12).toNat = (running 0x1200 State.reset).pc.toNat ∧ (∀ k, (running 0xF50A State.reset).key k = false) := by decide

theorem witness_TickCommutesWithOtherInstructions :
    (∀ x, Instr.cls ≠ .ldVxDt x) ∧ (∀ x, Instr.cls ≠ .ldDtVx x) ∧ (∀ x, Instr.cls ≠ .ldStVx x) ∧ (nextState (exec .cls oneLit)).isSome = true := by
  decide

/-- A program of one word, and one that fills memory. -/
theorem witness_LoadedProgramRuns :
    decode 0x1200 = .ok (.jp 0x200) ∧ ([] : List Byte).length ≤ 3582 ∧ 0x200 + 2 + 3582 = 4096 := by decide

end Sys2Proof.Tests
end

section
/-! PROOFS. The jump and the skips on a byte: each writes PC and nothing else (40_control_flow rules R101, R105, R106). -/

namespace Sys2Proof.Machine

/-- `pc <- target` writes no part of the state but PC (R12). -/
theorem State.jump_onlyChanges (s : State) (target : Word) : OnlyChanges s (s.jump target) [.pc] := by
  intro p hp
  cases p
  case pc => exact absurd (List.mem_singleton_self _) hp
  all_goals simp [Part.same]

/-- The frame that the jumps and the skips share: an instruction that runs and whose result is a jump sets PC to the target, and only PC. -/
theorem exec_of_result_jump {i : Instr} {s : State} {target : Word} (hrun : Instr.runs i s)
    (hres : Instr.result i s = s.jump target) :
    ∃ t, exec i s = .next t ∧ t.pc = target ∧ OnlyChanges s t [.pc] :=
  ⟨s.jump target, hres ▸ exec_of_runs hrun, State.jump_pc s target, State.jump_onlyChanges s target⟩

/-- Settles O23: JP runs in every state and its result is the jump to NNN, zero-extended. -/
theorem jumpResult : Obligations.JumpResult := by
  intro nnn s
  obtain ⟨t, hexec, hpc, hframe⟩ := exec_of_result_jump (i := .jp nnn) (s := s) trivial rfl
  exact ⟨rfl, t, hexec, by rw [hpc, zext16_toNat], hframe⟩

/-- Settles O26: both skips run in every state, and their results are jumps whose targets are chosen by the one comparison of VX with NN,
the other way round. -/
theorem skipOnByteResult : Obligations.SkipOnByteResult := by
  intro x nn s
  refine ⟨rfl, rfl, ?_, ?_⟩
  · exact exec_of_result_jump (i := .seByte x nn) trivial rfl
  · exact exec_of_result_jump (i := .sneByte x nn) trivial rfl

end Sys2Proof.Machine
end

section
/-! PROOFS. Loads, arithmetic, logic and shifts: each writes PC and VX, and 8XY4 to 8XYE a flag in VF after it (41_alu rules R120 to R132,
10_state rule R22). -/

namespace Sys2Proof.Machine

/-! ## Frames -/

/-- Two changes one after the other change the parts of both. -/
theorem OnlyChanges.trans {s t u : State} {ps qs : List Part} (hst : OnlyChanges s t ps) (htu : OnlyChanges t u qs) :
    OnlyChanges s u (ps ++ qs) := by
  intro p hp
  rw [List.mem_append, not_or] at hp
  have hs : p.same s t := hst p hp.1
  have ht : p.same t u := htu p hp.2
  cases p <;> exact Eq.trans ht hs

/-- The fetch's side effect is on PC alone (R70). -/
theorem State.advance_onlyChanges (s : State) : OnlyChanges s s.advance [.pc] := State.jump_onlyChanges s (s.pc + 2)

/-- `V[x] <- b` writes no part of the state but VX (R12). -/
theorem State.setV_onlyChanges (s : State) (x : Reg) (b : Byte) : OnlyChanges s (s.setV x b) [.v x] := by
  intro p hp
  cases p
  case v k =>
    have hne : x ≠ k := fun h => hp (by simp [h])
    simp [Part.same, hne]
  all_goals rfl

/-- A result and a flag are written to VX and VF (R22). -/
theorem State.setResultAndFlag_onlyChanges (s : State) (x : Reg) (b : Byte) (f : Bool) :
    OnlyChanges s (s.setResultAndFlag x b f) [.v x, .v VF] :=
  (State.setV_onlyChanges s x b).trans (State.setV_onlyChanges _ VF (flagByte f))

/-! ## Flags as numbers -/

@[simp] theorem flagByte_toNat (f : Bool) : (flagByte f).toNat = f.toNat := by cases f <;> rfl

/-- The low bit of a byte is its remainder modulo 2 (R128). -/
theorem lowBit_toNat (b : Byte) : (lowBit b).toNat = b.toNat % 2 := by
  rw [lowBit, BitVec.getLsbD, Nat.toNat_testBit, Nat.pow_zero, Nat.div_one]

/-- The high bit of a byte is its quotient by 128 (R130). -/
theorem highBit_toNat (b : Byte) : (highBit b).toNat = b.toNat / 128 := by
  have := b.isLt
  rw [highBit, BitVec.getLsbD, Nat.toNat_testBit]
  omega

/-- 8-bit subtraction is the difference of the integers modulo 256 (R127). -/
theorem byte_sub_toNat (a b : Byte) : ((a - b).toNat : Int) = ((a.toNat : Int) - b.toNat) % 256 := by
  have := a.isLt
  have := b.isLt
  rw [BitVec.toNat_sub]
  omega

/-! ## What the two kinds of instruction do -/

/-- What 6XNN, 7XNN and 8XY0 to 8XY3 share: an instruction that runs and whose result writes `b` to VX leaves `b` there, advances PC by 2,
and changes nothing else. -/
theorem exec_of_result_setV {i : Instr} {s : State} {x : Reg} {b : Byte} (hrun : Instr.runs i s)
    (hres : Instr.result i s = s.advance.setV x b) :
    ∃ t, exec i s = .next t ∧ t.getV x = b ∧ t.pc = s.pc + 2 ∧ OnlyChanges s t [.pc, .v x] :=
  ⟨s.advance.setV x b, hres ▸ exec_of_runs hrun, by simp, by simp,
    (State.advance_onlyChanges s).trans (State.setV_onlyChanges _ x b)⟩

/-- What 8XY4 to 8XYE share: an instruction that runs and whose result writes `b` to VX and then the flag `f` to VF leaves the flag in VF
whatever X is, `b` in VX for X other than 15, advances PC by 2, and changes nothing else. -/
theorem exec_of_result_setResultAndFlag {i : Instr} {s : State} {x : Reg} {b : Byte} {f : Bool} (hrun : Instr.runs i s)
    (hres : Instr.result i s = s.advance.setResultAndFlag x b f) :
    ∃ t, exec i s = .next t ∧ (x ≠ VF → t.getV x = b) ∧ t.getV VF = flagByte f ∧ t.pc = s.pc + 2 ∧
      OnlyChanges s t [.pc, .v x, .v VF] :=
  ⟨s.advance.setResultAndFlag x b f, hres ▸ exec_of_runs hrun, fun hx => by simp [hx], by simp, by simp,
    (State.advance_onlyChanges s).trans (State.setResultAndFlag_onlyChanges _ x b f)⟩

/-! ## The obligations -/

/-- Settles O28: 6XNN runs in every state and its result writes NN to VX. -/
theorem loadByteResult : Obligations.LoadByteResult := by
  intro x nn s
  exact ⟨rfl, exec_of_result_setV (i := .ldByte x nn) trivial rfl⟩

/-- Settles O29: 7XNN runs in every state and its result writes the 8-bit sum to VX. -/
theorem addByteResult : Obligations.AddByteResult := by
  intro x nn s
  obtain ⟨t, hexec, hx, hpc, hframe⟩ := exec_of_result_setV (i := .addByte x nn) (s := s) trivial rfl
  exact ⟨rfl, t, hexec, by rw [hx, BitVec.toNat_add], hpc, hframe⟩

/-- Settles O30: the four instructions run in every state and write VX only; the bit vector operations act bit by bit. -/
theorem copyAndLogicResult : Obligations.CopyAndLogicResult := by
  intro x y s
  refine ⟨rfl, rfl, rfl, rfl, exec_of_result_setV (i := .ldReg x y) trivial rfl, ?_, ?_, ?_⟩
  · obtain ⟨t, hexec, hx, hpc, hframe⟩ := exec_of_result_setV (i := .orReg x y) (s := s) trivial rfl
    exact ⟨t, hexec, fun b => by rw [hx, BitVec.getLsbD_or], hpc, hframe⟩
  · obtain ⟨t, hexec, hx, hpc, hframe⟩ := exec_of_result_setV (i := .andReg x y) (s := s) trivial rfl
    exact ⟨t, hexec, fun b => by rw [hx, BitVec.getLsbD_and], hpc, hframe⟩
  · obtain ⟨t, hexec, hx, hpc, hframe⟩ := exec_of_result_setV (i := .xorReg x y) (s := s) trivial rfl
    exact ⟨t, hexec, fun b => by rw [hx, BitVec.getLsbD_xor], hpc, hframe⟩

/-- Settles O31: 8XY4 writes the 8-bit sum to VX and then the carry to VF. -/
theorem addWithCarryResult : Obligations.AddWithCarryResult := by
  intro x y s
  obtain ⟨t, hexec, hx, hflag, hpc, hframe⟩ := exec_of_result_setResultAndFlag (i := .addReg x y) (s := s) trivial rfl
  exact ⟨rfl, t, hexec, fun hne => by rw [hx hne, BitVec.toNat_add], by simp [hflag, flagByte, carryOut], hpc, hframe⟩

/-- Settles O32: 8XY5 and 8XY7 write the 8-bit difference to VX, each in its own order of the operands, and then no-borrow to VF. -/
theorem subtractResult : Obligations.SubtractResult := by
  intro x y s
  refine ⟨rfl, rfl, ?_, ?_⟩
  · obtain ⟨t, hexec, hx, hflag, hpc, hframe⟩ := exec_of_result_setResultAndFlag (i := .sub x y) (s := s) trivial rfl
    exact ⟨t, hexec, fun hne => by rw [hx hne, byte_sub_toNat], by simp [hflag, flagByte, noBorrow], hpc, hframe⟩
  · obtain ⟨t, hexec, hx, hflag, hpc, hframe⟩ := exec_of_result_setResultAndFlag (i := .subn x y) (s := s) trivial rfl
    exact ⟨t, hexec, fun hne => by rw [hx hne, byte_sub_toNat], by simp [hflag, flagByte, noBorrow], hpc, hframe⟩

/-- Settles O33: both shifts write the shifted source to VX and then the bit shifted out to VF, whichever source SHIFT_SOURCE selects. -/
theorem shiftResult : Obligations.ShiftResult := by
  intro x y s src hsrc
  have hval : (s.shiftSource x y).toNat = src := by
    rw [hsrc, State.shiftSource]
    cases s.cfg.shiftSource <;> rfl
  refine ⟨rfl, rfl, ?_, ?_⟩
  · obtain ⟨t, hexec, hx, hflag, hpc, hframe⟩ := exec_of_result_setResultAndFlag (i := .shr x y) (s := s) trivial rfl
    refine ⟨t, hexec, fun hne => ?_, ?_, hpc, hframe⟩
    · rw [hx hne, BitVec.toNat_ushiftRight, hval, Nat.shiftRight_eq_div_pow, Nat.pow_one]
    · rw [hflag, flagByte_toNat, lowBit_toNat, hval]
  · obtain ⟨t, hexec, hx, hflag, hpc, hframe⟩ := exec_of_result_setResultAndFlag (i := .shl x y) (s := s) trivial rfl
    refine ⟨t, hexec, fun hne => ?_, ?_, hpc, hframe⟩
    · rw [hx hne, BitVec.toNat_shiftLeft, hval, Nat.shiftLeft_eq, Nat.pow_one]
    · rw [hflag, flagByte_toNat, highBit_toNat, hval]

end Sys2Proof.Machine
end

section
/-! PROOFS. The index register: ANNN writes I and PC and nothing else (42_index_memory rule R140). -/

namespace Sys2Proof.Machine

/-- `I <- a` writes no part of the state but I (R12). -/
theorem State.setI_onlyChanges (s : State) (a : Word) : OnlyChanges s (s.setI a) [.i] := by
  intro p hp
  cases p
  case i => exact absurd (List.mem_singleton_self _) hp
  all_goals simp [Part.same]

/-- What the instructions that only load I share: one that runs and whose result writes `a` to I leaves `a` there, advances PC by 2, and
changes nothing else. -/
theorem exec_of_result_setI {i : Instr} {s : State} {a : Word} (hrun : Instr.runs i s)
    (hres : Instr.result i s = s.advance.setI a) :
    ∃ t, exec i s = .next t ∧ t.i = a ∧ t.pc = s.pc + 2 ∧ OnlyChanges s t [.pc, .i] :=
  ⟨s.advance.setI a, hres ▸ exec_of_runs hrun, State.setI_i _ a, by simp,
    (State.advance_onlyChanges s).trans (State.setI_onlyChanges _ a)⟩

/-- Settles O35: ANNN runs in every state and its result writes NNN, zero-extended, to I. -/
theorem loadIndexResult : Obligations.LoadIndexResult := by
  intro nnn s
  obtain ⟨t, hexec, hi, hpc, hframe⟩ := exec_of_result_setI (i := .ldI nnn) (s := s) trivial rfl
  exact ⟨rfl, t, hexec, by rw [hi, zext16_toNat], hpc, hframe⟩

end Sys2Proof.Machine
end

section
/-! PROOFS. The display: 00E0 writes the display and PC and nothing else (43_display rule R160). -/

namespace Sys2Proof.Machine

/-- A write of the display writes no other part of the state (R12). -/
theorem State.setScreen_onlyChanges (s : State) (f : Screen) : OnlyChanges s (s.setScreen f) [.fb] := by
  intro p hp
  cases p
  case fb => exact absurd (List.mem_singleton_self _) hp
  all_goals simp [Part.same]

/-- The display that 00E0 leaves, 32 rows of zeros, has no lit pixel (R160). -/
@[simp] theorem Screen.pixel_replicate_zero (col row : Nat) : Screen.pixel (Vector.replicate 32 0#64) col row = false := by
  unfold Screen.pixel
  split
  · rw [Vector.getElem_replicate, BitVec.getLsbD_zero]
  · rfl

/-- Settles O19: 00E0 runs in every state, and its result advances PC and writes the display with no lit pixel. -/
theorem clearDisplayResult : Obligations.ClearDisplayResult := by
  intro s
  have hexec : exec .cls s = .next (s.advance.setScreen (Vector.replicate 32 0#64)) := exec_of_runs (i := .cls) trivial
  have hframe : OnlyChanges s (s.advance.setScreen (Vector.replicate 32 0#64)) [.pc, .fb] :=
    (State.advance_onlyChanges s).trans (State.setScreen_onlyChanges _ _)
  refine ⟨rfl, _, hexec, fun col row _ _ => ?_, ?_, hframe⟩
  · rw [State.setScreen_pixel, Screen.pixel_replicate_zero]
  · rw [State.setScreen_pc, State.advance_pc]

end Sys2Proof.Machine
end

section
/-! PROOFS. The keypad wait and the timers: FX0A changes nothing while no key is pressed and otherwise writes the lowest key to VX; FX07
writes VX, FX15 and FX18 write one timer each (44_keypad_timers rules R175 to R178). -/

namespace Sys2Proof.Machine

/-! ## The lowest pressed key -/

theorem mem_keyIndices : ∀ k : Nibble, k ∈ keyIndices := by decide

theorem keyIndices_increasing : keyIndices.Pairwise fun j k => j.toNat < k.toNat := by decide

/-- The set P of R175 is empty exactly when no key is pressed. -/
theorem State.lowestKey_eq_none_iff (s : State) : s.lowestKey = none ↔ ∀ k, s.key k = false := by
  simp [State.lowestKey, mem_keyIndices]

/-- The key FX0A finds is pressed, and it is min(P) (R175): a lower key would stand before it in the list. -/
theorem State.lowestKey_spec {s : State} {k : Nibble} (h : s.lowestKey = some k) :
    s.key k = true ∧ ∀ j, s.key j = true → k.toNat ≤ j.toNat := by
  obtain ⟨hk, before, after, hsplit, hbefore⟩ := List.find?_eq_some_iff_append.1 h
  refine ⟨hk, fun j hj => ?_⟩
  have hsorted : (before ++ k :: after).Pairwise fun a b => a.toNat < b.toNat := hsplit ▸ keyIndices_increasing
  have hmem : j ∈ before ++ k :: after := hsplit ▸ mem_keyIndices j
  obtain hj' | rfl | hj' : j ∈ before ∨ j = k ∨ j ∈ after := by simpa using hmem
  · have hreleased : s.key j = false := by simpa using hbefore j hj'
    exact absurd hj (by simp [hreleased])
  · exact le_rfl
  · exact (List.rel_of_pairwise_cons (List.pairwise_append.1 hsorted).2.1 hj').le

/-- A pressed key with no lower pressed key is the one FX0A finds, since a minimum is unique (R175). -/
theorem State.lowestKey_eq_some {s : State} {k : Nibble} (hk : s.key k = true) (hmin : ∀ j, s.key j = true → k.toNat ≤ j.toNat) :
    s.lowestKey = some k := by
  cases hlow : s.lowestKey with
  | none => exact absurd hk (by simp [s.lowestKey_eq_none_iff.1 hlow k])
  | some m =>
    obtain ⟨hm, hmle⟩ := State.lowestKey_spec hlow
    rw [BitVec.eq_of_toNat_eq (Nat.le_antisymm (hmle k hk) (hmin m hm))]

/-! ## Frames of the timers -/

/-- `DT <- b` writes no part of the state but DT (R12). -/
theorem State.setDt_onlyChanges (s : State) (b : Byte) : OnlyChanges s (s.setDt b) [.dt] := by
  intro p hp
  cases p
  case dt => exact absurd (List.mem_singleton_self _) hp
  all_goals simp [Part.same]

/-- `ST <- b` writes no part of the state but ST (R12). -/
theorem State.setSt_onlyChanges (s : State) (b : Byte) : OnlyChanges s (s.setSt b) [.st] := by
  intro p hp
  cases p
  case st => exact absurd (List.mem_singleton_self _) hp
  all_goals simp [Part.same]

/-! ## The obligations -/

/-- Settles O42: FX0A runs in every state; with no key pressed its result is the state itself, and with keys pressed it writes the lowest
one to VX. -/
theorem waitForKeyResult : Obligations.WaitForKeyResult := by
  intro x s
  have hexec : exec (.ldVxK x) s = .next (Instr.result (.ldVxK x) s) := exec_of_runs (i := .ldVxK x) trivial
  refine ⟨rfl, fun hnone => ?_, fun k hk hmin => ?_⟩
  · simp only [hexec, Instr.result, s.lowestKey_eq_none_iff.2 hnone]
  · have hres : Instr.result (.ldVxK x) s = s.advance.setV x (k.setWidth 8) := by
      simp only [Instr.result, State.lowestKey_eq_some hk hmin]
    obtain ⟨t, ht, hx, hpc, hframe⟩ := exec_of_result_setV (i := .ldVxK x) trivial hres
    exact ⟨t, ht, by rw [hx, BitVec.toNat_setWidth_of_le (by decide)], hpc, hframe⟩

/-- Settles O43: the three instructions run in every state, and each result advances PC and makes one write, to VX, to DT or to ST. -/
theorem timerInstructionsResult : Obligations.TimerInstructionsResult := by
  intro x s
  have hdt : exec (.ldDtVx x) s = .next (s.advance.setDt (s.getV x)) := exec_of_runs (i := .ldDtVx x) trivial
  have hst : exec (.ldStVx x) s = .next (s.advance.setSt (s.getV x)) := exec_of_runs (i := .ldStVx x) trivial
  refine ⟨rfl, rfl, rfl, exec_of_result_setV (i := .ldVxDt x) trivial rfl, ⟨_, hdt, ?_, ?_, ?_⟩, ⟨_, hst, ?_, ?_, ?_⟩⟩
  · exact State.setDt_dt _ _
  · rw [State.setDt_pc, State.advance_pc]
  · exact (State.advance_onlyChanges s).trans (State.setDt_onlyChanges _ _)
  · exact State.setSt_st _ _
  · rw [State.setSt_pc, State.advance_pc]
  · exact (State.advance_onlyChanges s).trans (State.setSt_onlyChanges _ _)

end Sys2Proof.Machine
end

section
/-! PROOFS. The TICK port: each timer counts down on its own and stops at 0 (60_exceptions rule R212). -/

namespace Sys2Proof.Machine

/-- The clamp at 0 is the truncated subtraction of naturals: above 0 the byte subtraction does not wrap (R212). -/
theorem tickTimer_toNat (t : Byte) : (tickTimer t).toNat = t.toNat - 1 := by
  unfold tickTimer
  split
  case isTrue hzero => simp [hzero]
  case isFalse hpos =>
    have hle : 1#8 ≤ t := by bv_omega
    exact BitVec.toNat_sub_of_le hle

/-- A tick writes no part of the state but the two timers (R212). -/
theorem State.tick_onlyChanges (s : State) : OnlyChanges s s.tick [.dt, .st] :=
  (State.setDt_onlyChanges s (tickTimer s.dt)).trans (State.setSt_onlyChanges _ (tickTimer s.st))

/-! ## The obligation -/

/-- Settles O44: TICK answers OK with the ticked state whatever the fault register holds, and each timer there is its own value through the
clamped decrement. -/
theorem tickResult : Obligations.TickResult := by
  intro s
  exact ⟨s.tick, rfl, tickTimer_toNat s.dt, tickTimer_toNat s.st, s.tick_onlyChanges⟩

end Sys2Proof.Machine
end

section
/-! PROOFS. The decoder against the encoder and the opcode map: every word either is the word of the instruction it decodes to or is refused,
and a word that matches a row decodes to an instruction of that row (30_encoding rules R71 to R76). -/

namespace Sys2Proof

/-! ## Decoding and encoding undo each other -/

/-- The fields of the formats are read back from the word, so the decoder finds the arm of the instruction (R73, R74). -/
@[simp] theorem decode_encode (i : Instr) : decode (encode i) = .ok i := by
  cases i
  case cls | ret => rfl
  all_goals simp [encode, decode, decodeClass8, decodeClassE, decodeClassF]

/-- An instruction is two bytes: the decoder takes these and no more (R73, R78). -/
theorem decodeBytes_encode (i : Instr) (rest : List Byte) :
    decodeBytes (highByte (encode i) :: lowByte (encode i) :: rest) = .ok (i, rest) := by
  simp [decodeBytes]

/-- What a decoder that drops no bit answers for a word: an instruction whose word it is, or a refusal with the word. -/
def DecodesExactly (w : Word) (d : Except DecodeError Instr) : Prop :=
  (∃ i, d = .ok i ∧ encode i = w) ∨ d = .error (.unimplementedOpcode w)

theorem DecodesExactly.ok {w : Word} {i : Instr} (h : encode i = w) : DecodesExactly w (.ok i) := .inl ⟨i, rfl, h⟩

theorem DecodesExactly.error (w : Word) : DecodesExactly w (.error (.unimplementedOpcode w)) := .inr rfl

/-- A word of a known op-class, put together from the fields of each format. -/
theorem formatA_fields {w : Word} {op : Nibble} (hop : opClass w = op) : formatA op (fieldNNN w) = w :=
  hop ▸ (word_eq_formatA w).symm

theorem formatXB_fields {w : Word} {op : Nibble} (hop : opClass w = op) : formatXB op (fieldX w) (fieldNN w) = w :=
  hop ▸ (word_eq_formatXB w).symm

theorem formatXYN_fields {w : Word} {op : Nibble} (hop : opClass w = op) : formatXYN op (fieldX w) (fieldY w) (fieldN w) = w :=
  hop ▸ (word_eq_formatXYN w).symm

/-- A word of a known op-class and sub-op byte (format XS). -/
theorem formatXS_fields {w : Word} {op : Nibble} {b : Byte} (hop : opClass w = op) (hb : fieldNN w = b) : formatXB op (fieldX w) b = w :=
  hb ▸ formatXB_fields hop

/-- A word of a known op-class and sub-op nibble (format XYS). -/
theorem formatXYS_fields {w : Word} {op n : Nibble} (hop : opClass w = op) (hn : fieldN w = n) :
    formatXYN op (fieldX w) (fieldY w) n = w :=
  hn ▸ formatXYN_fields hop

theorem decodeClass0_exact (w : Word) : DecodesExactly w (decodeClass0 w) := by
  unfold decodeClass0
  split
  · next h => exact .ok h.symm
  · split
    · next h => exact .ok h.symm
    · exact .error w

theorem decodeClass8_exact {w : Word} (hop : opClass w = 0x8#4) : DecodesExactly w (decodeClass8 w) := by
  unfold decodeClass8
  split
  case h_10 => exact .error w
  all_goals exact .ok (formatXYS_fields hop (BitVec.eq_of_toNat_eq ‹_›))

theorem decodeClassE_exact {w : Word} (hop : opClass w = 0xE#4) : DecodesExactly w (decodeClassE w) := by
  unfold decodeClassE
  split
  case h_3 => exact .error w
  all_goals exact .ok (formatXS_fields hop (BitVec.eq_of_toNat_eq ‹_›))

theorem decodeClassF_exact {w : Word} (hop : opClass w = 0xF#4) : DecodesExactly w (decodeClassF w) := by
  unfold decodeClassF
  split
  case h_10 => exact .error w
  all_goals exact .ok (formatXS_fields hop (BitVec.eq_of_toNat_eq ‹_›))

/-- The decoder answers exactly. Arm `h_n` of the match is op-class n - 1, and the last is no op-class (R74). -/
theorem decode_exact (w : Word) : DecodesExactly w (decode w) := by
  unfold decode
  split
  case h_1 => exact decodeClass0_exact w
  case h_9 h => exact decodeClass8_exact (BitVec.eq_of_toNat_eq h)
  case h_15 h => exact decodeClassE_exact (BitVec.eq_of_toNat_eq h)
  case h_16 h => exact decodeClassF_exact (BitVec.eq_of_toNat_eq h)
  case h_6 h | h_10 h =>
    split
    · next hn => exact .ok (formatXYS_fields (BitVec.eq_of_toNat_eq h) hn)
    · exact .error w
  case h_14 h => exact .ok (formatXYN_fields (BitVec.eq_of_toNat_eq h))
  case h_2 h | h_3 h | h_11 h | h_12 h => exact .ok (formatA_fields (BitVec.eq_of_toNat_eq h))
  case h_4 h | h_5 h | h_7 h | h_8 h | h_13 h => exact .ok (formatXB_fields (BitVec.eq_of_toNat_eq h))
  case h_17 => exact .error w

/-- A word that decodes is the word of its instruction. -/
theorem encode_of_decode {w : Word} {i : Instr} (h : decode w = .ok i) : encode i = w := by
  obtain ⟨j, hj, hw⟩ | hw := decode_exact w
  · cases h.symm.trans hj; exact hw
  · cases h.symm.trans hw

/-- The decoder's only refusal of a word is UnimplementedOpcode with that word (R76). -/
theorem decode_error {w : Word} {e : DecodeError} (h : decode w = .error e) : e = .unimplementedOpcode w := by
  obtain ⟨j, hj, -⟩ | hw := decode_exact w
  · cases h.symm.trans hj
  · cases h.symm.trans hw; rfl

/-! ## The rows of the opcode map -/

theorem opClass_and (w m : Word) : opClass (w &&& m) = opClass w &&& opClass m := BitVec.extractLsb'_and

theorem fieldN_and (w m : Word) : fieldN (w &&& m) = fieldN w &&& fieldN m := BitVec.extractLsb'_and

theorem fieldNN_and (w m : Word) : fieldNN (w &&& m) = fieldNN w &&& fieldNN m := BitVec.extractLsb'_and

/-- A field that a mask keeps is the match value's. -/
theorem opClass_of_masked {w m v : Word} (h : w &&& m = v) (hm : opClass m = BitVec.allOnes 4) : opClass w = opClass v := by
  rw [← h, opClass_and, hm, BitVec.and_allOnes]

theorem fieldN_of_masked {w m v : Word} (h : w &&& m = v) (hm : fieldN m = BitVec.allOnes 4) : fieldN w = fieldN v := by
  rw [← h, fieldN_and, hm, BitVec.and_allOnes]

theorem fieldNN_of_masked {w m v : Word} (h : w &&& m = v) (hm : fieldNN m = BitVec.allOnes 8) : fieldNN w = fieldNN v := by
  rw [← h, fieldNN_and, hm, BitVec.and_allOnes]

/-- A word that matches the row of an instruction decodes to an instruction of that row: every mask keeps the op-class, and the sub-op where
the class has one, and these are all the decoder branches on (R74, R75). -/
theorem decode_of_row {w : Word} (i : Instr) (h : w &&& i.row.mask = i.row.value) : ∃ j, decode w = .ok j ∧ j.row = i.row := by
  cases i
  all_goals simp only [Instr.row] at h
  case cls | ret =>
    obtain rfl : w = _ := (BitVec.and_allOnes (x := w)).symm.trans h
    exact ⟨_, rfl, rfl⟩
  case seReg | sneReg | ldReg | orReg | andReg | xorReg | addReg | sub | shr | subn | shl =>
    have hop := opClass_of_masked h (by decide)
    have hn := fieldN_of_masked h (by decide)
    exact ⟨_, by simp only [decode, decodeClass8, hop, hn]; rfl, by rfl⟩
  case skp | sknp | ldVxDt | ldVxK | ldDtVx | ldStVx | addI | ldF | ldB | storeRegs | loadRegs =>
    have hop := opClass_of_masked h (by decide)
    have hnn := fieldNN_of_masked h (by decide)
    exact ⟨_, by simp only [decode, decodeClassE, decodeClassF, hop, hnn]; rfl, by rfl⟩
  all_goals
    have hop := opClass_of_masked h (by decide)
    exact ⟨_, by simp only [decode, hop]; rfl, by rfl⟩

/-- Every row of the map is the row of some instruction. -/
theorem exists_row_of_mem_opcodeMap {r : OpcodeRow} (h : r ∈ opcodeMap) : ∃ i : Instr, i.row = r := by
  obtain h | h := List.mem_append.1 h
  · obtain ⟨i, -, hi⟩ := List.mem_map.1 h; exact ⟨i, hi⟩
  · obtain ⟨i, -, hi⟩ := List.mem_map.1 h; exact ⟨i, hi⟩

/-- A word that matches a row of the map decodes to an instruction of that row. -/
theorem decode_of_mem_opcodeMap {w : Word} {r : OpcodeRow} (hr : r ∈ opcodeMap) (h : w &&& r.mask = r.value) :
    ∃ i, decode w = .ok i ∧ i.row = r := by
  obtain ⟨i, rfl⟩ := exists_row_of_mem_opcodeMap hr
  exact decode_of_row i h

/-- A word that decodes matches the row of its instruction, which is a row of the map. -/
theorem row_of_decode {w : Word} {i : Instr} (h : decode w = .ok i) : i.row ∈ opcodeMap ∧ w &&& i.row.mask = i.row.value := by
  obtain rfl := encode_of_decode h
  exact Laws.rowMatch_all i

/-! ## The unrecognized words -/

/-- A field of a known value, as the literal. -/
theorem eq_ofNat_of_toNat_eq {n k : Nat} {x : BitVec n} (h : x.toNat = k) : x = BitVec.ofNat n k := by simp [← h]

theorem decodeClass0_refuses_iff (w : Word) :
    decodeClass0 w = .error (.unimplementedOpcode w) ↔ w ≠ 0x00E0#16 ∧ w ≠ 0x00EE#16 := by
  unfold decodeClass0
  split
  · next h => simp [h]
  · next h => split <;> simp_all

theorem decodeClass8_refuses_iff (w : Word) :
    decodeClass8 w = .error (.unimplementedOpcode w) ↔ fieldN w ∈ [0x8#4, 0x9#4, 0xA#4, 0xB#4, 0xC#4, 0xD#4, 0xF#4] := by
  unfold decodeClass8
  split
  case h_10 =>
    have hn := (fieldN w).isLt
    simp only [imp_false] at *
    simp only [List.mem_cons, ← BitVec.toNat_inj, BitVec.toNat_ofNat, List.not_mem_nil, true_iff]
    omega
  all_goals
    next h =>
    have hn : fieldN w = _ := eq_ofNat_of_toNat_eq h
    simp [hn]

theorem decodeClassE_refuses_iff (w : Word) :
    decodeClassE w = .error (.unimplementedOpcode w) ↔ fieldNN w ∉ [0x9E#8, 0xA1#8] := by
  unfold decodeClassE
  split
  case h_3 => simp_all [← BitVec.toNat_inj]
  all_goals
    next h =>
    have hnn : fieldNN w = _ := eq_ofNat_of_toNat_eq h
    simp [hnn]

theorem decodeClassF_refuses_iff (w : Word) :
    decodeClassF w = .error (.unimplementedOpcode w) ↔
      fieldNN w ∉ [0x07#8, 0x0A#8, 0x15#8, 0x18#8, 0x1E#8, 0x29#8, 0x33#8, 0x55#8, 0x65#8] := by
  unfold decodeClassF
  split
  case h_10 => simp_all [← BitVec.toNat_inj]
  all_goals
    next h =>
    have hnn : fieldNN w = _ := eq_ofNat_of_toNat_eq h
    simp [hnn]

/-! ## The obligations -/

/-- Settles O1: the decoder reads the fields back from the word, and the bytes from the list. -/
theorem decodeOfEncodeIsIdentity : Obligations.DecodeOfEncodeIsIdentity :=
  fun i _ => ⟨decode_encode i, decodeBytes_encode i⟩

/-- Settles O2: every arm of the decoder answers an instruction whose word is the word given. -/
theorem encodeOfDecodeIsIdentity : Obligations.EncodeOfDecodeIsIdentity := fun _ _ => encode_of_decode

/-- Settles O3: a word that decodes is its instruction's word, which matches the row; a row's mask keeps all the decoder branches on; and a
word that is not refused matches a row. -/
theorem decodeFollowsOpcodeMap : Obligations.DecodeFollowsOpcodeMap := by
  intro w
  refine ⟨fun i => row_of_decode, fun r => decode_of_mem_opcodeMap, fun hnone => ?_⟩
  obtain ⟨i, hi, -⟩ | hw := decode_exact w
  · obtain ⟨hmem, hrow⟩ := row_of_decode hi
    exact absurd hrow (hnone _ hmem)
  · exact hw

/-- Settles O4: two rows that match one word are both the row of the one instruction it decodes to. -/
theorem opcodeRowsAreDisjoint : Obligations.OpcodeRowsAreDisjoint := by
  refine ⟨rfl, fun w r hr r' hr' h h' => ?_⟩
  obtain ⟨i, hi, rfl⟩ := decode_of_mem_opcodeMap hr h
  obtain ⟨j, hj, rfl⟩ := decode_of_mem_opcodeMap hr' h'
  obtain rfl : i = j := Except.ok.inj (hi.symm.trans hj)
  rfl

/-- Settles O5: the decoder evaluated on the ten words. -/
theorem sampleWordsDecode : Obligations.SampleWordsDecode := by
  unfold Obligations.SampleWordsDecode
  decide

/-- Settles O6: op-class by op-class, the classes with a sub-op refuse what their own table lacks, and the others refuse nothing. -/
theorem unrecognizedWordsByClass : Obligations.UnrecognizedWordsByClass := by
  intro w
  unfold decode
  split
  case h_17 =>
    have hlt := (opClass w).isLt
    simp only [imp_false] at *
    omega
  all_goals
    next h =>
    have hop : opClass w = _ := eq_ofNat_of_toNat_eq h
    simp [hop, decodeClass0_refuses_iff, decodeClass8_refuses_iff, decodeClassE_refuses_iff, decodeClassF_refuses_iff]

end Sys2Proof
end

section
/-! PROOFS. What an instruction may change, said once as a list of parts: the rules about all instructions read their one part off it
(10_state rules R20 to R36, 41_alu rule R133, 44_keypad_timers rule R172). -/

namespace Sys2Proof.Machine

/-! ## Frames -/

/-- A longer list of parts is a weaker frame. -/
theorem OnlyChanges.mono {s t : State} {ps qs : List Part} (h : OnlyChanges s t ps) (hsub : ∀ p ∈ ps, p ∈ qs) : OnlyChanges s t qs :=
  fun p hp => h p fun hmem => hp (hsub p hmem)

/-- A part that does not read the same is listed. -/
theorem OnlyChanges.mem_of_changed {s t : State} {ps : List Part} {p : Part} (h : OnlyChanges s t ps) (hp : ¬ p.same s t) : p ∈ ps :=
  Decidable.byContradiction fun hnot => hp (h p hnot)

theorem OnlyChanges.refl (s : State) : OnlyChanges s s [] := by
  intro p _
  cases p <;> rfl

/-- Taking a fault writes the fault status register alone (R203). -/
theorem State.takeFault_onlyChanges (s : State) (w : Option Word) (r : Raise) : OnlyChanges s (s.takeFault w r) [.fault] := by
  intro p hp
  cases p
  case fault => exact absurd (List.mem_singleton_self _) hp
  all_goals rfl

/-- A random draw writes the count of draws alone (R133). -/
theorem State.consumeRandom_onlyChanges (s : State) : OnlyChanges s s.consumeRandom [.rngDraws] := by
  intro p hp
  cases p
  case rngDraws => exact absurd (List.mem_singleton_self _) hp
  all_goals rfl

/-- The registers V0 to V(n - 1), as parts. -/
def regsBelow (n : Nat) : List Part := (List.range n).map fun k => .v (BitVec.ofNat 4 k)

theorem v_mem_regsBelow {k : Reg} {n : Nat} (hn : n ≤ 16) : Part.v k ∈ regsBelow n ↔ k.toNat < n := by
  simp only [regsBelow, List.mem_map, List.mem_range, Part.v.injEq]
  constructor
  · rintro ⟨j, hj, rfl⟩
    simp only [BitVec.toNat_ofNat]; omega
  · intro hk
    exact ⟨k.toNat, hk, by simp⟩

/-- Loading `n` registers writes those registers alone (R145). -/
theorem State.loadFrom_onlyChanges (s : State) (base n : Nat) (hn : n ≤ 16) : OnlyChanges s (s.loadFrom base n) (regsBelow n) := by
  intro p hp
  cases p
  case v k =>
    rw [v_mem_regsBelow hn] at hp
    exact (State.loadFrom_getV s base n k hn).trans (if_neg hp)
  case mem a => exact State.loadFrom_readByte s base n a
  all_goals simp only [Part.same]; rw [State.loadFrom_eq]

/-- A pop or a push and a jump: PC and the stack alone. -/
theorem OnlyChanges.pc_stack (s : State) (a : Word) (l : List Word) : OnlyChanges s { s with pc := a, stack := l } [.pc, .stack] := by
  intro p hp
  cases p
  case pc | stack => exact absurd (by simp) hp
  all_goals rfl

/-- The parts instruction `i` may change when it raises nothing. -/
def Instr.changes (i : Instr) (s : State) : List Part :=
  match i with
  | .cls => [.pc, .fb]
  | .ret | .call _ => [.pc, .stack]
  | .jp _ | .jpV0 _ | .seByte _ _ | .sneByte _ _ | .seReg _ _ | .sneReg _ _ | .skp _ | .sknp _ => [.pc]
  | .ldByte x _ | .addByte x _ | .ldReg x _ | .orReg x _ | .andReg x _ | .xorReg x _ | .ldVxDt x | .ldVxK x => [.pc, .v x]
  | .addReg x _ | .sub x _ | .shr x _ | .subn x _ | .shl x _ => [.pc, .v x, .v VF]
  | .rnd x _ => [.pc, .rngDraws, .v x]
  | .drw _ _ _ => [.pc, .fb, .v VF]
  | .ldI _ | .addI _ | .ldF _ => [.pc, .i]
  | .ldDtVx _ => [.pc, .dt]
  | .ldStVx _ => [.pc, .st]
  | .ldB _ => .pc :: bytesAt s.i.toNat 3
  | .storeRegs x => .pc :: bytesAt s.i.toNat (x.toNat + 1)
  | .loadRegs x => .pc :: regsBelow (x.toNat + 1)

/-- FX0A either leaves the state as it is or writes a key to VX (R175). -/
theorem Instr.result_ldVxK_cases (x : Reg) (s : State) :
    (s.lowestKey = none ∧ Instr.result (.ldVxK x) s = s) ∨
    (∃ k, s.lowestKey = some k ∧ Instr.result (.ldVxK x) s = s.advance.setV x (k.setWidth 8)) := by
  cases h : s.lowestKey with
  | none => exact .inl ⟨rfl, by simp only [Instr.result, h]⟩
  | some k => exact .inr ⟨k, rfl, by simp only [Instr.result, h]⟩

/-- An instruction that raises nothing changes its parts alone. -/
theorem Instr.result_onlyChanges (i : Instr) (s : State) : OnlyChanges s (Instr.result i s) (Instr.changes i s) := by
  have hadv := s.advance_onlyChanges
  cases i
  case ret | call => exact OnlyChanges.pc_stack s _ _
  case jp | jpV0 | seByte | sneByte | seReg | sneReg | skp | sknp => exact State.jump_onlyChanges s _
  case ldI | addI | ldF => exact hadv.trans (State.setI_onlyChanges _ _)
  case ldDtVx => exact hadv.trans (State.setDt_onlyChanges _ _)
  case ldStVx => exact hadv.trans (State.setSt_onlyChanges _ _)
  case cls => exact hadv.trans (State.setScreen_onlyChanges _ _)
  case drw => exact hadv.trans ((State.setScreen_onlyChanges _ _).trans (State.setV_onlyChanges _ _ _))
  case rnd => exact hadv.trans ((State.consumeRandom_onlyChanges _).trans (State.setV_onlyChanges _ _ _))
  case addReg | sub | shr | subn | shl => exact hadv.trans (State.setResultAndFlag_onlyChanges _ _ _ _)
  case ldB x => exact hadv.trans (State.writeBytes_onlyChanges _ _ (bcdDigits (s.getV x)))
  case storeRegs x =>
    have hstore := State.writeBytes_onlyChanges s.advance s.i.toNat (s.regsUpTo x)
    rw [State.regsUpTo_length] at hstore
    exact hadv.trans hstore
  case loadRegs x => exact hadv.trans (State.loadFrom_onlyChanges _ _ _ (by have := x.isLt; omega))
  case ldVxK x =>
    obtain ⟨-, hres⟩ | ⟨k, -, hres⟩ := Instr.result_ldVxK_cases x s
    · rw [hres]; exact (OnlyChanges.refl s).mono (by simp)
    · rw [hres]; exact hadv.trans (State.setV_onlyChanges _ _ _)
  all_goals exact hadv.trans (State.setV_onlyChanges _ _ _)

/-- An instruction changes its parts, or the fault status register where it raises. -/
theorem exec_onlyChanges {i : Instr} {s t : State} (h : exec i s = .next t) : OnlyChanges s t (.fault :: Instr.changes i s) := by
  obtain ⟨-, rfl⟩ | ⟨-, rfl⟩ := exec_cases h
  · exact (Instr.result_onlyChanges i s).mono (by simp +contextual)
  · exact (State.takeFault_onlyChanges _ _ _).mono (by simp)

/-- Any other part that reads differently after an instruction is one of the instruction's parts. -/
theorem mem_changes_of_exec {i : Instr} {s t : State} {p : Part} (h : exec i s = .next t) (hfault : p ≠ .fault) (hp : ¬ p.same s t) :
    p ∈ Instr.changes i s :=
  List.mem_of_ne_of_mem hfault ((exec_onlyChanges h).mem_of_changed hp)

/-! ## Which instruction lists a part -/

theorem fb_mem_changes {i : Instr} {s : State} (h : .fb ∈ Instr.changes i s) : i = .cls ∨ ∃ x y n, i = .drw x y n := by
  cases i <;> simp_all [Instr.changes, bytesAt, regsBelow]

theorem stack_mem_changes {i : Instr} {s : State} (h : .stack ∈ Instr.changes i s) : i = .ret ∨ ∃ nnn, i = .call nnn := by
  cases i <;> simp_all [Instr.changes, bytesAt, regsBelow]

theorem dt_mem_changes {i : Instr} {s : State} (h : .dt ∈ Instr.changes i s) : ∃ x, i = .ldDtVx x := by
  cases i <;> simp_all [Instr.changes, bytesAt, regsBelow]

theorem st_mem_changes {i : Instr} {s : State} (h : .st ∈ Instr.changes i s) : ∃ x, i = .ldStVx x := by
  cases i <;> simp_all [Instr.changes, bytesAt, regsBelow]

theorem rngDraws_mem_changes {i : Instr} {s : State} (h : .rngDraws ∈ Instr.changes i s) : ∃ x nn, i = .rnd x nn := by
  cases i <;> simp_all [Instr.changes, bytesAt, regsBelow]

theorem keys_not_mem_changes (i : Instr) (s : State) : .keys ∉ Instr.changes i s := by
  cases i <;> simp [Instr.changes, bytesAt, regsBelow]

theorem i_mem_changes {i : Instr} {s : State} (h : .i ∈ Instr.changes i s) :
    (∃ nnn, i = .ldI nnn) ∨ (∃ x, i = .addI x) ∨ ∃ x, i = .ldF x := by
  cases i <;> simp_all [Instr.changes, bytesAt, regsBelow]

theorem v_mem_changes {i : Instr} {s : State} {k : Reg} (h : .v k ∈ Instr.changes i s) : Instr.mayWrite i k = true := by
  cases i
  case loadRegs x =>
    have hk := (v_mem_regsBelow (by have := x.isLt; omega)).1 (List.mem_of_ne_of_mem (by simp) h)
    simp only [Instr.mayWrite, decide_eq_true_eq]; omega
  all_goals simp_all [Instr.changes, Instr.mayWrite, bytesAt]

theorem mem_mem_changes {i : Instr} {s : State} {a : Nat} (h : .mem a ∈ Instr.changes i s) :
    (∃ x, i = .ldB x ∧ s.i.toNat ≤ a ∧ a ≤ s.i.toNat + 2) ∨
    (∃ x, i = .storeRegs x ∧ s.i.toNat ≤ a ∧ a ≤ s.i.toNat + x.toNat) := by
  cases i
  case ldB x =>
    have ha := mem_bytesAt.1 (List.mem_of_ne_of_mem (by simp) h)
    exact .inl ⟨x, rfl, by omega, by omega⟩
  case storeRegs x =>
    have ha := mem_bytesAt.1 (List.mem_of_ne_of_mem (by simp) h)
    exact .inr ⟨x, rfl, by omega, by omega⟩
  all_goals simp [Instr.changes, regsBelow] at h

/-! ## The obligations -/

/-- Settles O49: the display is a part of 00E0 and DXYN alone. -/
theorem onlyClearAndDrawChangeTheDisplay : Obligations.OnlyClearAndDrawChangeTheDisplay := by
  intro i s t h hne
  exact fb_mem_changes (mem_changes_of_exec (p := .fb) h (by simp) hne)

/-- Settles O50: the stack is a part of 00EE and 2NNN alone, and each of them moves one entry. -/
theorem onlyCallAndReturnChangeTheStack : Obligations.OnlyCallAndReturnChangeTheStack := by
  intro i s t h hne
  obtain ⟨hrun, rfl⟩ | ⟨-, rfl⟩ := exec_cases h
  · obtain rfl | ⟨nnn, rfl⟩ := stack_mem_changes ((Instr.result_onlyChanges i s).mem_of_changed (p := .stack) hne)
    · exact .inr ⟨rfl, s.stack.head hrun, (List.cons_head_tail hrun).symm⟩
    · exact .inl ⟨nnn, rfl, s.pc + 2, rfl⟩
  · exact absurd rfl hne

/-- Settles O51: each timer and the count of draws are parts of one instruction each, and the keys of none. -/
theorem timersKeysAndRandomSource : Obligations.TimersKeysAndRandomSource := by
  intro i s t h
  refine ⟨fun hne => ?_, fun hne => ?_, ?_, ?_, fun hne => ?_⟩
  · exact dt_mem_changes (mem_changes_of_exec (p := .dt) h (by simp) hne)
  · exact st_mem_changes (mem_changes_of_exec (p := .st) h (by simp) hne)
  · exact exec_onlyChanges h .keys (by simp [keys_not_mem_changes])
  · rintro x nn rfl
    rw [exec_of_runs (i := .rnd x nn) trivial] at h
    cases h; rfl
  · by_contra hdraws
    obtain ⟨x, nn, hi⟩ := rngDraws_mem_changes (mem_changes_of_exec (p := .rngDraws) h (by simp) hdraws)
    exact hne x nn hi

/-- Settles O52: the registers an instruction's parts list are those it may write. -/
theorem registersChangeOnlyAsDestinations : Obligations.RegistersChangeOnlyAsDestinations := by
  intro i s t k h hne
  exact v_mem_changes (mem_changes_of_exec (p := .v k) h (by simp) hne)

/-- Settles O53: bytes are parts of FX33 and FX55 alone, which run only when their whole range is below 4096. -/
theorem memoryChangesOnlyByStores : Obligations.MemoryChangesOnlyByStores := by
  intro i s t a h hne
  obtain ⟨hrun, rfl⟩ | ⟨-, rfl⟩ := exec_cases h
  · have hwhere := mem_mem_changes ((Instr.result_onlyChanges i s).mem_of_changed (p := .mem a) hne)
    refine ⟨?_, hwhere⟩
    obtain ⟨x, rfl, -, ha⟩ | ⟨x, rfl, -, ha⟩ := hwhere
    · exact Nat.lt_of_le_of_lt ha hrun
    · exact Nat.lt_of_le_of_lt ha hrun
  · exact absurd rfl hne

end Sys2Proof.Machine
end

section
/-! PROOFS. One step: fetch, decode and exec, or the fault that fetch or decode takes (30_encoding rules R70 to R72, 60_exceptions rules R200
to R204). -/

namespace Sys2Proof.Machine

/-! ## What a step can do -/

/-- The word at PC, its first byte the high one (R70). -/
def State.wordAtPc (s : State) : Word := wordOfBytes (s.readByte s.pc.toNat) (s.readByte (s.pc.toNat + 1))

theorem step_of_faulted {s : State} {r : FaultRecord} (h : s.fault = some r) : step s = .next s := by
  simp only [step, h]

/-- The fetch is out of range. -/
theorem step_of_fetch_error {s : State} (h : s.fault = none) (hpc : memSize ≤ s.pc.toNat + 1) :
    step s = .next (s.takeFault none (.memoryOutOfBounds (max s.pc.toNat memSize))) := by
  simp only [step, h, State.fetchDecode, s.fetch_error hpc]

/-- The word matches no row. -/
theorem step_of_refused {s : State} {e : DecodeError} (h : s.fault = none) (hpc : s.pc.toNat + 1 < memSize)
    (hdec : decode s.wordAtPc = .error e) : step s = .next (s.takeFault (some s.wordAtPc) .unimplementedOpcode) := by
  simp only [State.wordAtPc] at hdec ⊢
  simp only [step, h, State.fetchDecode, s.fetch_ok hpc, hdec]

/-- The word is an instruction. -/
theorem step_of_decode {s : State} {i : Instr} (h : s.fault = none) (hpc : s.pc.toNat + 1 < memSize)
    (hdec : decode s.wordAtPc = .ok i) : step s = exec i s := by
  simp only [State.wordAtPc] at hdec
  simp only [step, h, State.fetchDecode, s.fetch_ok hpc, hdec]

/-- The four things a step can do. -/
inductive StepCase (s : State) : Prop where
  | faulted (r : FaultRecord) (h : s.fault = some r) (hstep : step s = .next s)
  | fetchError (h : s.fault = none) (hpc : memSize ≤ s.pc.toNat + 1)
      (hstep : step s = .next (s.takeFault none (.memoryOutOfBounds (max s.pc.toNat memSize))))
  | refused (h : s.fault = none) (hdec : decode s.wordAtPc = .error (.unimplementedOpcode s.wordAtPc))
      (hstep : step s = .next (s.takeFault (some s.wordAtPc) .unimplementedOpcode))
  | executed (h : s.fault = none) (hpc : s.pc.toNat + 1 < memSize) (i : Instr) (hstep : step s = exec i s)

theorem step_case (s : State) : StepCase s := by
  cases h : s.fault with
  | some r => exact .faulted r h (step_of_faulted h)
  | none =>
    by_cases hpc : s.pc.toNat + 1 < memSize
    · cases hdec : decode s.wordAtPc with
      | ok i => exact .executed h hpc i (step_of_decode h hpc hdec)
      | error e => exact .refused h (decode_error hdec ▸ hdec) (step_of_refused h hpc hdec)
    · exact .fetchError h (Nat.le_of_not_lt hpc) (step_of_fetch_error h (Nat.le_of_not_lt hpc))

theorem exec_next (i : Instr) (s : State) : ∃ t, exec i s = .next t := by
  by_cases hrun : Instr.runs i s
  · exact ⟨_, exec_of_runs hrun⟩
  · exact ⟨_, exec_of_not_runs hrun⟩

/-- Every step is answered by a next state. -/
theorem step_next (s : State) : ∃ t, step s = .next t := by
  cases step_case s with
  | faulted r h hstep => exact ⟨_, hstep⟩
  | fetchError h hpc hstep => exact ⟨_, hstep⟩
  | refused h hdec hstep => exact ⟨_, hstep⟩
  | executed h hpc i hstep => exact hstep ▸ exec_next i s

/-- The STEP port goes on to the step's state, and its answer is read from that state (R211). -/
theorem serve_step {s t : State} (h : step s = .next t) : serve s .step = .next (t, t.stepAnswer) := by
  simp only [serve, h]

theorem State.stepAnswer_of_none {t : State} (h : t.fault = none) : t.stepAnswer = .ok := by
  simp only [State.stepAnswer, h]

theorem State.stepAnswer_of_some {t : State} {r : FaultRecord} (h : t.fault = some r) : t.stepAnswer = .fault r.code.number := by
  simp only [State.stepAnswer, h]

/-! ## Raising -/

/-- An instruction that leaves a core running ran. -/
theorem runs_of_exec {i : Instr} {s t : State} (h : exec i s = .next t) (ht : t.fault = none) :
    Instr.runs i s ∧ t = Instr.result i s := by
  obtain hran | ⟨-, rfl⟩ := exec_cases h
  · exact hran
  · cases ht

/-- An instruction that stops a running core raised. -/
theorem not_runs_of_exec {i : Instr} {s t : State} (hs : s.fault = none) (h : exec i s = .next t) (ht : t.fault ≠ none) :
    ¬ Instr.runs i s ∧ t = s.takeFault (some (encode i)) (Instr.raise i s) := by
  obtain ⟨-, rfl⟩ | hraised := exec_cases h
  · exact absurd ((Instr.result_fault i s).trans hs) ht
  · exact hraised

/-- What is raised has an address exactly when it is MemoryOutOfBounds (R201). -/
theorem Raise.addr_ne_none_iff (r : Raise) : r.addr ≠ none ↔ r.code = .memoryOutOfBounds := by
  cases r <;> simp [Raise.addr, Raise.code]

theorem FaultCode.number_bounds (c : FaultCode) : 1 ≤ c.number ∧ c.number ≤ 5 := by
  cases c <;> decide

/-! ## The obligations -/

/-- Settles O7: the fetch is in range and gives the word at PC, so the step is the decoded instruction and nothing more. -/
theorem stepRunsDecodedInstruction : Obligations.StepRunsDecodedInstruction := fun _ _ => step_of_decode

/-- Settles O8: the fetch reports the lower of its addresses that is out of range; the decoder's refusal is taken with its word. -/
theorem stepFetchAndDecodeFaults : Obligations.StepFetchAndDecodeFaults := by
  intro s h
  refine ⟨step_of_fetch_error h, fun hpc w hw hdec => ?_⟩
  subst hw
  exact step_of_refused h hpc hdec

/-- Settles O9: a faulted core's step is the state itself, whose fault register STEP answers from. -/
theorem stepWhileFaultedChangesNothing : Obligations.StepWhileFaultedChangesNothing := by
  intro s r h
  refine ⟨step_of_faulted h, ?_⟩
  rw [serve_step (step_of_faulted h), State.stepAnswer_of_some h]

/-- Settles O10: each of the four cases of a step answers a next state, and the port answers from its fault register. -/
theorem everyStepIsAnswered : Obligations.EveryStepIsAnswered := by
  intro s
  obtain ⟨t, ht⟩ := step_next s
  refine ⟨t, ht, fun hnone => ?_, fun r hr => ⟨?_, r.code.number_bounds⟩⟩
  · rw [serve_step ht, State.stepAnswer_of_none hnone]
  · rw [serve_step ht, State.stepAnswer_of_some hr]

/-- Settles O11: fetch, decode and instruction all take their fault on the state before the step. -/
theorem faultEntryIsPrecise : Obligations.FaultEntryIsPrecise := by
  intro s t hs h ht
  cases step_case s with
  | faulted r hr hstep => exact absurd (hs.symm.trans hr) (by simp)
  | fetchError hnone hpc hstep => cases hstep.symm.trans h; exact ⟨_, _, _, rfl⟩
  | refused hnone hdec hstep => cases hstep.symm.trans h; exact ⟨_, _, _, rfl⟩
  | executed hnone hpc i hstep =>
    obtain ⟨-, rfl⟩ := not_runs_of_exec hs (hstep.symm.trans h) ht
    exact ⟨_, _, _, rfl⟩

/-- Settles O12: the record is the one of what the instruction raises. -/
theorem instructionsRaiseOnlyTheirFault : Obligations.InstructionsRaiseOnlyTheirFault := by
  intro i s t r hs h hr
  obtain ⟨hnot, rfl⟩ := not_runs_of_exec hs h (by simp [hr])
  obtain ⟨hkind, haddr⟩ := raise_of_not_runs hnot
  cases hr
  exact ⟨hkind, rfl, rfl, Raise.addr_ne_none_iff _, haddr⟩

end Sys2Proof.Machine
end

section
/-! PROOFS. The state after construction (70_reset_and_hazards rule R240) and the invariant: the bounds of every part after an instruction
that runs, the shape of every record, and so every step (10_state rules R24 to R34, 60_exceptions rule R201). -/

namespace Sys2Proof.Machine

/-! ## Construction -/

/-- The reset image holds the font at FONT_BASE (R31). -/
theorem resetByte_font (c : Config) (k : Nat) (hk : k < 80) : resetByte c (fontBase + k) = c.fontData[k] := by
  have hin : fontBase ≤ fontBase + k ∧ fontBase + k < fontBase + fontSize := by simp only [fontBase, fontSize]; omega
  rw [resetByte, dif_pos hin]
  simp only [Nat.add_sub_cancel_left]

/-- The reset image is 0 elsewhere (R30). -/
theorem resetByte_outside (c : Config) (a : Nat) (ha : a < fontBase ∨ fontBase + fontSize ≤ a) : resetByte c a = 0#8 := by
  rw [resetByte, dif_neg (by omega)]

/-- Settles O16: a constructed core lists no cell, so memory reads as the reset image. -/
theorem constructionSetsPcAndMemory : Obligations.ConstructionSetsPcAndMemory :=
  fun c => ⟨rfl, resetByte_font c, resetByte_outside c⟩

/-- Settles O17: each value as R240 and D1 give it. -/
theorem constructionClearsTheRest : Obligations.ConstructionClearsTheRest :=
  fun c => ⟨State.construct_getV c, rfl, rfl, rfl, rfl, State.construct_pixel c, State.construct_key c, rfl, rfl⟩

/-! ## The clauses of the invariant -/

/-- The stack is within its limit when no number STACK_LIMIT is below its depth (R28). -/
theorem State.depthOk_iff (s : State) : s.depthOk = true ↔ ∀ n, s.cfg.stackLimit = .bounded n → s.stack.length ≤ n := by
  unfold State.depthOk
  cases s.cfg.stackLimit <;> simp

/-- The stack is full when STACK_LIMIT is its depth (R102). -/
theorem State.stackFull_iff (s : State) : s.stackFull = true ↔ s.cfg.stackLimit = .bounded s.stack.length := by
  unfold State.stackFull
  cases s.cfg.stackLimit with
  | unbounded => simp
  | bounded n => simp only [beq_iff_eq, StackLimit.bounded.injEq]; exact eq_comm

theorem State.recordOk_of_none {s : State} (h : s.fault = none) : s.recordOk = true := by
  simp only [State.recordOk, h]

/-- The record of a failed fetch has the shape of R201. -/
theorem shapeOk_of_fetch {pc : Word} {a : Nat} (ha : memSize ≤ a) : FaultRecord.shapeOk ⟨.memoryOutOfBounds, pc, none, some a⟩ = true :=
  decide_eq_true ha

/-- The record of a refused word has the shape of R201. -/
theorem shapeOk_of_refused {pc w : Word} (h : decode w = .error (.unimplementedOpcode w)) :
    FaultRecord.shapeOk ⟨.unimplementedOpcode, pc, some w, none⟩ = true :=
  decide_eq_true h

/-- No instruction raises UnimplementedOpcode: only the decoder does (R202). -/
theorem faultKind_ne_unimplementedOpcode (i : Instr) : Instr.faultKind i ≠ some .unimplementedOpcode := by
  cases i <;> simp [Instr.faultKind]

/-- The record of what an instruction raises has the shape of R201. -/
theorem shapeOk_of_raise {i : Instr} {r : Raise} {pc : Word} (hkind : Instr.faultKind i = some r.code)
    (haddr : ∀ a, r.addr = some a → memSize ≤ a) : FaultRecord.shapeOk ⟨r.code, pc, some (encode i), r.addr⟩ = true := by
  cases r
  case unimplementedOpcode => exact absurd hkind (faultKind_ne_unimplementedOpcode i)
  all_goals simp_all [FaultRecord.shapeOk, Raise.code, Raise.addr]

/-- Taking a fault keeps the invariant when the record has its shape. -/
theorem Invariant.takeFault {s : State} {w : Option Word} {r : Raise} (h : Invariant s)
    (hshape : FaultRecord.shapeOk ⟨r.code, s.pc, w, r.addr⟩ = true) : Invariant (s.takeFault w r) where
  memory := h.memory
  index := h.index
  pc := h.pc
  returns := h.returns
  depth := h.depth
  config := h.config
  record := by simp [State.recordOk, hshape]

/-- A core that lists no cell, has an empty stack and no fault meets the invariant with any configuration R9 allows (R240). -/
theorem construct_invariant {c : Config} (h : c.wellFormed = true) : Invariant (State.construct c) where
  memory := rfl
  index := show (0#16).toNat < memSize by decide
  pc := show (0x200#16).toNat ≤ 0x1002 by decide
  returns := fun a ha => absurd ha List.not_mem_nil
  depth := (State.depthOk_iff _).2 fun n _ => Nat.zero_le n
  config := h
  record := State.recordOk_of_none rfl

/-- Settles O13: construction with any legal configuration, the default one among them. -/
theorem constructionMeetsInvariant : Obligations.ConstructionMeetsInvariant :=
  ⟨fun _ => construct_invariant, construct_invariant rfl⟩

/-! ## The parts after an instruction that runs -/

theorem Instr.result_wf (i : Instr) {s : State} (h : Memory.wf s.cfg s.mem = true) :
    Memory.wf (Instr.result i s).cfg (Instr.result i s).mem = true := by
  cases i
  case ldB | storeRegs => exact State.writeBytes_wf _ _ _ h
  case loadRegs => rw [Instr.result, State.loadFrom_eq]; exact h
  case ldVxK x =>
    obtain ⟨-, hres⟩ | ⟨k, -, hres⟩ := Instr.result_ldVxK_cases x s
    · rw [hres]; exact h
    · rw [hres]; exact h
  all_goals exact h

/-- A checked address, as a number (R54). -/
theorem toNat_address {t : Nat} (h : t < memSize) : (BitVec.ofNat 16 t).toNat = t := (checkAddress_toNat (checkAddress_ok h)).1

/-- I is NNN, or an address that was checked, or as before (R26). -/
theorem Instr.result_i_lt {i : Instr} {s : State} (hrun : Instr.runs i s) (h : s.i.toNat < memSize) :
    (Instr.result i s).i.toNat < memSize := by
  by_cases hsame : (Instr.result i s).i = s.i
  · rwa [hsame]
  · obtain ⟨nnn, rfl⟩ | ⟨x, rfl⟩ | ⟨x, rfl⟩ := i_mem_changes ((Instr.result_onlyChanges i s).mem_of_changed (p := .i) hsame)
    · exact (zext16_toNat nnn).trans_lt nnn.isLt
    · exact (toNat_address hrun).trans_lt hrun
    · exact (toNat_address (s.glyphAddress_lt x)).trans_lt (s.glyphAddress_lt x)

/-- The instruction after a fetched one, and the one after a skipped one, are at most at 0x1002 (R24). -/
theorem pc_add_le {pc : Word} (h : pc.toNat + 1 < memSize) : (pc + 2).toNat ≤ 0x1002 ∧ (pc + 4).toNat ≤ 0x1002 := by
  simp only [memSize] at h
  constructor <;> bv_omega

/-- PC is at most 0x1002: it is PC + 2, a skip's PC + 4, a 12-bit or checked target, or a return address (R24). -/
theorem Instr.result_pc_le {i : Instr} {s : State} (hrun : Instr.runs i s) (hpc : s.pc.toNat + 1 < memSize)
    (hreturns : ∀ a ∈ s.stack, a.toNat ≤ 0x1000) : (Instr.result i s).pc.toNat ≤ 0x1002 := by
  obtain ⟨hnext, hskip⟩ := pc_add_le hpc
  cases i
  case jp nnn | call nnn => exact (zext16_toNat nnn).trans_le (nnn.isLt.le.trans (by decide))
  case jpV0 nnn => exact (toNat_address hrun).trans_le (hrun.le.trans (by decide))
  case ret =>
    have hmem : s.stack.headD 0#16 ∈ s.stack := by
      rw [List.headD_eq_head?_getD, List.head?_eq_some_head hrun]
      exact List.head_mem hrun
    exact (hreturns _ hmem).trans (by decide)
  case seByte | sneByte | seReg | sneReg | skp | sknp =>
    simp only [Instr.result, State.jump_pc]
    split <;> assumption
  case ldB | storeRegs => rw [Instr.result, State.writeBytes_pc]; exact hnext
  case loadRegs => rw [Instr.result, State.loadFrom_eq]; exact hnext
  case ldVxK x =>
    obtain ⟨-, hres⟩ | ⟨k, -, hres⟩ := Instr.result_ldVxK_cases x s
    · rw [hres]; simp only [memSize] at hpc; omega
    · rw [hres]; exact hnext
  all_goals exact hnext

/-- What an instruction does to the stack: nothing, or RET drops the newest entry, or CALL pushes PC + 2 (R27). -/
theorem Instr.result_stack_cases (i : Instr) (s : State) :
    (Instr.result i s).stack = s.stack ∨ (i = .ret ∧ (Instr.result i s).stack = s.stack.tail) ∨
    (∃ nnn, i = .call nnn ∧ (Instr.result i s).stack = (s.pc + 2) :: s.stack) := by
  by_cases hsame : (Instr.result i s).stack = s.stack
  · exact .inl hsame
  · obtain rfl | ⟨nnn, rfl⟩ := stack_mem_changes ((Instr.result_onlyChanges i s).mem_of_changed (p := .stack) hsame)
    · exact .inr (.inl ⟨rfl, rfl⟩)
    · exact .inr (.inr ⟨nnn, rfl, rfl⟩)

/-- Every return address is at most 0x1000: a new one is the PC of a fetched CALL plus 2 (R102). -/
theorem Instr.result_returns {i : Instr} {s : State} (hpc : s.pc.toNat + 1 < memSize) (h : ∀ a ∈ s.stack, a.toNat ≤ 0x1000) :
    ∀ a ∈ (Instr.result i s).stack, a.toNat ≤ 0x1000 := by
  intro a ha
  obtain hsame | ⟨-, htail⟩ | ⟨nnn, -, hpush⟩ := Instr.result_stack_cases i s
  · exact h a (hsame ▸ ha)
  · exact h a (List.mem_of_mem_tail (htail ▸ ha))
  · obtain rfl | ha := List.mem_cons.1 (hpush ▸ ha)
    · simp only [memSize] at hpc; bv_omega
    · exact h a ha

/-- The stack stays within STACK_LIMIT: a CALL that runs found it below (R28, R102). -/
theorem Instr.result_depthOk {i : Instr} {s : State} (hrun : Instr.runs i s) (h : s.depthOk = true) :
    (Instr.result i s).depthOk = true := by
  rw [State.depthOk_iff, Instr.result_cfg]
  intro n hn
  have hdepth : s.stack.length ≤ n := (State.depthOk_iff s).1 h n hn
  obtain hsame | ⟨-, htail⟩ | ⟨nnn, rfl, hpush⟩ := Instr.result_stack_cases i s
  · rwa [hsame]
  · rw [htail, List.length_tail]; omega
  · have hne : s.stack.length ≠ n := by
      rintro rfl
      exact absurd ((State.stackFull_iff s).2 hn) (by simp [show s.stackFull = false from hrun])
    rw [hpush, List.length_cons]; omega

/-- An instruction that runs keeps the invariant of a core that fetched it. -/
theorem Invariant.result {i : Instr} {s : State} (h : Invariant s) (hfault : s.fault = none) (hpc : s.pc.toNat + 1 < memSize)
    (hrun : Instr.runs i s) : Invariant (Instr.result i s) where
  memory := Instr.result_wf i h.memory
  index := Instr.result_i_lt hrun h.index
  pc := Instr.result_pc_le hrun hpc h.returns
  returns := Instr.result_returns hpc h.returns
  depth := Instr.result_depthOk hrun h.depth
  config := Instr.result_cfg i s ▸ h.config
  record := State.recordOk_of_none ((Instr.result_fault i s).trans hfault)

/-- A step keeps the invariant: a faulted core's changes nothing, fetch and decode take a fault of the right shape, and an instruction runs or
takes its own. -/
theorem Invariant.step {s t : State} (h : Invariant s) (hstep : step s = .next t) : Invariant t := by
  cases step_case s with
  | faulted r hr hs => cases hs.symm.trans hstep; exact h
  | fetchError hnone hpc hs =>
    cases hs.symm.trans hstep
    exact h.takeFault (shapeOk_of_fetch (le_max_right _ _))
  | refused hnone hdec hs =>
    cases hs.symm.trans hstep
    exact h.takeFault (shapeOk_of_refused hdec)
  | executed hnone hpc i hs =>
    obtain ⟨hrun, rfl⟩ | ⟨hnot, rfl⟩ := exec_cases (hs.symm.trans hstep)
    · exact h.result hnone hpc hrun
    · obtain ⟨hkind, haddr⟩ := raise_of_not_runs hnot
      exact h.takeFault (shapeOk_of_raise hkind haddr)

/-! ## The obligation -/

/-- Settles O14, case by case of a step. -/
theorem stepKeepsInvariant : Obligations.StepKeepsInvariant := fun _ _ => Invariant.step

end Sys2Proof.Machine
end

section
/-! PROOFS. The host's ports: what one request does, and what any list of them keeps (60_exceptions rules R210 to R218). -/

namespace Sys2Proof.Machine

/-! ## KEY and LOAD -/

theorem State.setKey_of_lt (s : State) {index : Nat} (pressed : Bool) (h : index < 16) :
    s.setKey index pressed = ({ s with keys := s.keys.set index pressed }, .ok) := dif_pos h

theorem State.setKey_of_le (s : State) {index : Nat} (pressed : Bool) (h : 16 ≤ index) :
    s.setKey index pressed = (s, .invalidKeyIndex) := dif_neg (Nat.not_lt.2 h)

theorem State.load_of_fits (s : State) {bytes : List Byte} {origin : Nat} (h : origin + bytes.length ≤ memSize) :
    s.load bytes origin = (s.writeBytes origin bytes, .ok) := if_neg (Nat.not_lt.2 h)

theorem State.load_of_too_large (s : State) {bytes : List Byte} {origin : Nat} (h : memSize < origin + bytes.length) :
    s.load bytes origin = (s, .romTooLarge) := if_pos h

/-- A write of the keys writes no other part of the state (R33). -/
theorem State.keys_onlyChanges (s : State) (keys : Vector Bool 16) : OnlyChanges s { s with keys := keys } [.keys] := by
  intro p hp
  cases p
  case keys => exact absurd (List.mem_singleton_self _) hp
  all_goals rfl

/-! ## Any request, and any list of requests -/

/-- What a request that is answered does to the state: a step, a tick, a write of keys, a write of bytes, or nothing. -/
inductive ServeCase (s t : State) : Prop where
  | step (h : step s = .next t)
  | tick (h : t = s.tick)
  | keys (ks : Vector Bool 16) (h : t = { s with keys := ks })
  | bytes (origin : Nat) (bs : List Byte) (h : t = s.writeBytes origin bs)
  | same (h : t = s)

theorem serve_case {s t : State} {q : Request} {a : Response} (h : serve s q = .next (t, a)) : ServeCase s t := by
  cases q with
  | step =>
    obtain ⟨u, hu⟩ := step_next s
    cases (serve_step hu).symm.trans h
    exact .step hu
  | tick => cases h; exact .tick rfl
  | key index pressed =>
    obtain hlt | hle := Nat.lt_or_ge index 16
    · simp only [serve, s.setKey_of_lt pressed hlt] at h; cases h; exact .keys _ rfl
    · simp only [serve, s.setKey_of_le pressed hle] at h; cases h; exact .same rfl
  | load bytes origin =>
    obtain hlarge | hfits := Nat.lt_or_ge memSize (origin + bytes.length)
    · simp only [serve, s.load_of_too_large hlarge] at h; cases h; exact .same rfl
    · simp only [serve, s.load_of_fits hfits] at h; cases h; exact .bytes _ _ rfl
  | fb | status => cases h; exact .same rfl

/-- What every answered request keeps, every answered list of requests keeps. -/
theorem serveAll_keeps {P : State → Prop} (hserve : ∀ {s t : State} {q : Request} {a : Response}, P s → serve s q = .next (t, a) → P t)
    {s t : State} {qs : List Request} {as : List Response} (hs : P s) (h : serveAll s qs = .next (t, as)) : P t := by
  induction qs generalizing s as with
  | nil => cases h; exact hs
  | cons q qs ih =>
    simp only [serveAll] at h
    split at h
    · cases h
    · cases h
    · next u a hq =>
      split at h
      · cases h
      · cases h
      · next v bs hrest => cases h; exact ih (hserve hs hq) hrest

/-- A tick, a write of keys and a write of bytes touch no clause of the invariant but the canonical form, which a write of bytes keeps. -/
theorem Invariant.serve {s t : State} {q : Request} {a : Response} (h : Invariant s) (hq : serve s q = .next (t, a)) : Invariant t := by
  cases serve_case hq with
  | step hstep => exact h.step hstep
  | tick ht => subst ht; exact ⟨h.memory, h.index, h.pc, h.returns, h.depth, h.config, h.record⟩
  | keys ks ht => subst ht; exact ⟨h.memory, h.index, h.pc, h.returns, h.depth, h.config, h.record⟩
  | bytes origin bs ht =>
    subst ht
    have hmem := s.writeBytes_wf origin bs h.memory
    rw [State.writeBytes_eq] at hmem ⊢
    exact ⟨hmem, h.index, h.pc, h.returns, h.depth, h.config, h.record⟩
  | same ht => exact ht ▸ h

/-- A step of a faulted core changes nothing, and no other request writes the fault status register (R204). -/
theorem serve_keeps_fault {r : FaultRecord} {s t : State} {q : Request} {a : Response} (hs : s.fault = some r)
    (hq : serve s q = .next (t, a)) : t.fault = some r := by
  cases serve_case hq with
  | step hstep => cases (step_of_faulted hs).symm.trans hstep; exact hs
  | tick ht => exact ht ▸ hs
  | keys ks ht => exact ht ▸ hs
  | bytes origin bs ht => rw [ht, State.writeBytes_fault, hs]
  | same ht => exact ht ▸ hs

/-- No case of a step writes the parameters (R36). -/
theorem step_cfg {s t : State} (h : step s = .next t) : t.cfg = s.cfg := by
  cases step_case s with
  | faulted r hr hs => cases hs.symm.trans h; rfl
  | fetchError hnone hpc hs => cases hs.symm.trans h; rfl
  | refused hnone hdec hs => cases hs.symm.trans h; rfl
  | executed hnone hpc i hs =>
    obtain ⟨-, rfl⟩ | ⟨-, rfl⟩ := exec_cases (hs.symm.trans h)
    · exact Instr.result_cfg i s
    · rfl

/-! ## The read ports -/

theorem State.framebuffer_length (s : State) : s.framebuffer.length = 2048 := (List.length_map _).trans List.length_range

/-- The bit of the pixel (col, row) is at index col + 64 * row (R214). -/
theorem State.framebuffer_getElem? (s : State) {col row : Nat} (hcol : col < 64) (hrow : row < 32) :
    s.framebuffer[col + 64 * row]? = some (s.pixel col row) := by
  have hindex : col + 64 * row < displayW * displayH := by simp only [displayW, displayH]; omega
  have hcol' : (col + 64 * row) % displayW = col := by simp only [displayW]; omega
  have hrow' : (col + 64 * row) / displayW = row := by simp only [displayW]; omega
  rw [State.framebuffer, List.getElem?_map, List.getElem?_range hindex, Option.map_some, State.frameBit, hcol', hrow']

/-! ## The obligations -/

/-- Settles O15: each request keeps the invariant, so every list of them does. -/
theorem hostRequestsKeepInvariant : Obligations.HostRequestsKeepInvariant := fun _ _ _ _ => serveAll_keeps Invariant.serve

/-- Settles O18: a step writes no parameter, and no other request does. -/
theorem configurationNeverChanges : Obligations.ConfigurationNeverChanges := by
  intro s t q a h
  cases serve_case h with
  | step hstep => exact step_cfg hstep
  | tick ht => exact ht ▸ rfl
  | keys ks ht => exact ht ▸ rfl
  | bytes origin bs ht => rw [ht, State.writeBytes_cfg]
  | same ht => exact ht ▸ rfl

/-- Settles O45: KEY writes one element of the keys, or nothing. -/
theorem keyPortResult : Obligations.KeyPortResult := by
  intro s index pressed
  refine ⟨fun hlt => ⟨_, congrArg Host.Outcome.next (s.setKey_of_lt pressed hlt), fun k => ?_, s.keys_onlyChanges _⟩,
    fun hle => congrArg Host.Outcome.next (s.setKey_of_le pressed hle)⟩
  simp only [State.key, Vector.getElem_set, eq_comm]

/-- Settles O46: LOAD writes its bytes when they fit, and nothing when they do not. -/
theorem loadPortResult : Obligations.LoadPortResult := by
  intro s bytes origin
  refine ⟨fun hmem hfits => ⟨_, congrArg Host.Outcome.next (s.load_of_fits hfits), fun j hj => ?_, s.writeBytes_onlyChanges _ _⟩,
    fun hlarge => congrArg Host.Outcome.next (s.load_of_too_large hlarge)⟩
  exact s.writeBytes_readByte_inside origin bytes j hj hfits hmem

/-- Settles O47: both ports answer from the state and go on to the state itself. -/
theorem readPortsShowTheState : Obligations.ReadPortsShowTheState := by
  intro s
  exact ⟨⟨s.framebuffer, rfl, s.framebuffer_length, fun col row => s.framebuffer_getElem?⟩,
    ⟨s.shown, rfl, rfl, rfl, rfl, rfl, rfl, rfl, rfl, bne_iff_ne⟩⟩

/-- Settles O48: each request keeps the record, so every list of them does. -/
theorem faultIsSticky : Obligations.FaultIsSticky := fun _ _ _ _ _ => serveAll_keeps serve_keeps_fault

end Sys2Proof.Machine
end

section
/-! PROOFS. Control flow, keys, the random byte and the index register: the instructions that raise as well as run, each by what it leaves when
it runs and what it raises when it does not (40_control_flow rules R100 to R108, 41_alu rule R134, 42_index_memory rules R141 and R142,
44_keypad_timers rules R171 to R174). -/

namespace Sys2Proof.Machine

/-- An instruction that does not run raises its kind of fault and changes nothing else (R203). -/
theorem raises_of_not_runs {i : Instr} {s : State} (h : ¬ Instr.runs i s) : Raises (exec i s) s (Instr.raise i s).code :=
  ⟨_, exec_of_not_runs h, rfl⟩

/-- A class that needs N = 0 refuses every other N (R107, R108). -/
theorem decode_formatXYN_refused {op : Nibble} (x y : Reg) {n : Nibble} (hop : op = 0x5#4 ∨ op = 0x9#4) (hn : n ≠ 0#4) :
    decode (formatXYN op x y n) = .error (.unimplementedOpcode (formatXYN op x y n)) := by
  obtain rfl | rfl := hop
  · simp [decode, hn]
  · simp [decode, hn]

/-- Settles O22: with an entry RET runs and its result pops it into PC; with none it raises. -/
theorem returnResult : Obligations.ReturnResult := by
  refine ⟨rfl, fun s => ⟨fun a rest hstack => ?_, fun hempty => ?_⟩⟩
  · have hrun : Instr.runs .ret s := by simp [Instr.runs, hstack]
    refine ⟨_, exec_of_runs hrun, ?_, ?_, Instr.result_onlyChanges .ret s⟩
    · simp [Instr.result, hstack]
    · simp [Instr.result, hstack]
  · exact raises_of_not_runs (i := .ret) fun hrun => hrun hempty

/-- Settles O24: CALL runs unless the stack is full, and its result pushes PC + 2 and jumps. -/
theorem callResult : Obligations.CallResult := by
  intro nnn s
  refine ⟨fun hroom => ?_, fun hfull => ?_⟩
  · have hrun : Instr.runs (.call nnn) s := Bool.eq_false_of_not_eq_true fun hf => hroom (s.stackFull_iff.1 hf)
    exact ⟨_, exec_of_runs hrun, rfl, zext16_toNat nnn, Instr.result_onlyChanges (.call nnn) s⟩
  · exact exec_of_not_runs (i := .call nnn) (by simp [Instr.runs, s.stackFull_iff.2 hfull])

/-- Settles O25: BNNN runs when the sum is an address, and its result is the jump there. -/
theorem jumpWithOffsetResult : Obligations.JumpWithOffsetResult := by
  intro nnn s
  refine ⟨fun hlt => ?_, fun hle => exec_of_not_runs (i := .jpV0 nnn) (Nat.not_lt.2 hle)⟩
  obtain ⟨t, hexec, hpc, hframe⟩ := exec_of_result_jump (i := .jpV0 nnn) (s := s) hlt rfl
  exact ⟨t, hexec, by rw [hpc]; exact toNat_address hlt, hframe⟩

/-- Settles O27: both skips run in every state, and their results are jumps whose targets one comparison of VX with VY chooses, the other way
round. -/
theorem skipOnRegisterResult : Obligations.SkipOnRegisterResult := by
  intro x y s
  refine ⟨rfl, rfl, fun n hn op hop => decode_formatXYN_refused x y hop hn, ?_, ?_⟩
  · exact exec_of_result_jump (i := .seReg x y) trivial rfl
  · exact exec_of_result_jump (i := .sneReg x y) trivial rfl

/-- Settles O41: with VX below 16 both skips run, and the key their results look up is the one VX names; from 16 on both raise. -/
theorem skipOnKeyResult : Obligations.SkipOnKeyResult := by
  intro x s
  refine ⟨fun k hk => ?_, fun hle => ⟨exec_of_not_runs (i := .skp x) (Nat.not_lt.2 hle), exec_of_not_runs (i := .sknp x) (Nat.not_lt.2 hle)⟩⟩
  have hlt : (s.getV x).toNat < 16 := hk ▸ k.isLt
  have hkey : (s.getV x).setWidth 4 = k := by
    apply BitVec.eq_of_toNat_eq
    rw [BitVec.toNat_setWidth, Nat.mod_eq_of_lt hlt, hk]
  constructor
  · exact exec_of_result_jump (i := .skp x) hlt (by rw [Instr.result, hkey])
  · exact exec_of_result_jump (i := .sknp x) hlt (by rw [Instr.result, hkey])

/-- The byte drawn is the script's where it has one, and the free byte past its end (R133, D17). -/
theorem State.randomByte_eq {s : State} {r : Byte} (hscript : (h : s.rngDraws < s.cfg.rngScript.length) → r = s.cfg.rngScript[s.rngDraws])
    (hfree : s.cfg.rngScript.length ≤ s.rngDraws → r = Config.freeRandomByte s.rngDraws) : s.randomByte = r := by
  obtain hlt | hle := Nat.lt_or_ge s.rngDraws s.cfg.rngScript.length
  · simp [State.randomByte, hlt, hscript hlt]
  · simp [State.randomByte, hle, hfree hle]

/-- Settles O34: CXNN runs in every state, and its result counts one draw and writes the drawn byte AND NN to VX. -/
theorem randomResult : Obligations.RandomResult := by
  intro x nn s r hscript hfree
  have hx : (Instr.result (.rnd x nn) s).getV x = r &&& nn := by simp [Instr.result, State.randomByte_eq hscript hfree]
  refine ⟨_, exec_of_runs (i := .rnd x nn) trivial, fun b => ?_, rfl, rfl, ?_⟩
  · rw [hx, BitVec.getLsbD_and]
  · exact (Instr.result_onlyChanges (.rnd x nn) s).mono (by simp [Instr.changes])

/-- Settles O36: FX1E runs when the sum is an address, and its result writes it to I. -/
theorem addToIndexResult : Obligations.AddToIndexResult := by
  intro x s
  refine ⟨fun hlt => ?_, fun hle => exec_of_not_runs (i := .addI x) (Nat.not_lt.2 hle)⟩
  obtain ⟨t, hexec, hi, hpc, hframe⟩ := exec_of_result_setI (i := .addI x) (s := s) hlt rfl
  exact ⟨t, hexec, by rw [hi]; exact toNat_address hlt, hpc, hframe⟩

/-- Settles O37: FX29 runs in every state, since 0x050 + 5 * 255 is an address, and its result writes the glyph's address to I. -/
theorem fontAddressResult : Obligations.FontAddressResult := by
  intro x s
  obtain ⟨t, hexec, hi, hpc, hframe⟩ := exec_of_result_setI (i := .ldF x) (s := s) trivial rfl
  exact ⟨t, hexec, by rw [hi]; exact toNat_address (s.glyphAddress_lt x), hpc, hframe⟩

end Sys2Proof.Machine
end

section
/-! PROOFS. The multi-byte instructions: FX33 and FX55 store, FX65 loads, DXYN draws, each after the check of its whole range
(42_index_memory rules R143 to R145, 43_display rules R161 to R163). -/

namespace Sys2Proof.Machine

/-! ## Stores and loads -/

/-- After FX33 the three digits stand at I, I + 1 and I + 2. -/
theorem result_ldB_readByte {x : Reg} {s : State} (hmem : Memory.wf s.cfg s.mem = true) (hrun : Instr.runs (.ldB x) s) (k : Nat)
    (hk : k < 3) : (Instr.result (.ldB x) s).readByte (s.i.toNat + k) = (bcdDigits (s.getV x))[k]'hk :=
  State.writeBytes_readByte_inside _ _ (bcdDigits (s.getV x)) k hk (show s.i.toNat + 3 ≤ memSize from hrun) hmem

/-- A decimal digit fits in a byte. -/
theorem toNat_digit {d : Nat} (h : d < 10) : (BitVec.ofNat 8 d).toNat = d := by
  rw [BitVec.toNat_ofNat, Nat.mod_eq_of_lt (by omega)]

/-- After FX55 the register Vk stands at I + k. -/
theorem result_storeRegs_readByte {x k : Reg} {s : State} (hmem : Memory.wf s.cfg s.mem = true) (hrun : Instr.runs (.storeRegs x) s)
    (hk : k.toNat ≤ x.toNat) : (Instr.result (.storeRegs x) s).readByte (s.i.toNat + k.toNat) = s.getV k := by
  have hlen : k.toNat < (s.regsUpTo x).length := by rw [State.regsUpTo_length]; omega
  have hfits : s.i.toNat + (s.regsUpTo x).length ≤ memSize := by rw [State.regsUpTo_length]; exact hrun
  refine (State.writeBytes_readByte_inside s.advance _ _ _ hlen hfits hmem).trans ?_
  rw [State.regsUpTo_getElem, reg_ofNat_toNat]

/-- After FX65 the register Vk is the byte at I + k, for k up to X, and as before beyond. -/
theorem result_loadRegs_getV (x k : Reg) (s : State) :
    (Instr.result (.loadRegs x) s).getV k = if k.toNat ≤ x.toNat then s.readByte (s.i.toNat + k.toNat) else s.getV k := by
  have hx := x.isLt
  refine (State.loadFrom_getV s.advance _ _ k (by omega)).trans ?_
  simp only [Nat.lt_succ_iff, State.advance_readByte, State.advance_getV]

/-- Settles O38: FX33 runs when I + 2 is an address, and its result stores the digits. -/
theorem storeDigitsResult : Obligations.StoreDigitsResult := by
  intro x s
  refine ⟨rfl, fun hmem hrun => ?_, fun hle => raises_of_not_runs (i := .ldB x) (Nat.not_lt.2 hle)⟩
  have hx := (s.getV x).isLt
  refine ⟨_, exec_of_runs (i := .ldB x) hrun, ?_, ?_, ?_, State.writeBytes_pc _ _ _, Instr.result_onlyChanges (.ldB x) s⟩
  · exact (congrArg BitVec.toNat (result_ldB_readByte hmem hrun 0 (by decide))).trans (toNat_digit (by omega))
  · exact (congrArg BitVec.toNat (result_ldB_readByte hmem hrun 1 (by decide))).trans (toNat_digit (by omega))
  · exact (congrArg BitVec.toNat (result_ldB_readByte hmem hrun 2 (by decide))).trans (toNat_digit (by omega))

/-- Settles O39: FX55 runs when I + X is an address, and its result stores V0 to VX. -/
theorem storeRegistersResult : Obligations.StoreRegistersResult := by
  intro x s
  refine ⟨rfl, fun hmem hrun => ?_, fun hle => raises_of_not_runs (i := .storeRegs x) (Nat.not_lt.2 hle)⟩
  exact ⟨_, exec_of_runs (i := .storeRegs x) hrun, fun k => result_storeRegs_readByte hmem hrun, State.writeBytes_pc _ _ _,
    Instr.result_onlyChanges (.storeRegs x) s⟩

/-- Settles O40: FX65 runs when I + X is an address, and its result loads V0 to VX. -/
theorem loadRegistersResult : Obligations.LoadRegistersResult := by
  intro x s
  refine ⟨rfl, fun hrun => ?_, fun hle => raises_of_not_runs (i := .loadRegs x) (Nat.not_lt.2 hle)⟩
  refine ⟨_, exec_of_runs (i := .loadRegs x) hrun, fun k hk => ?_, fun k hk => ?_, ?_, Instr.result_onlyChanges (.loadRegs x) s⟩
  · rw [result_loadRegs_getV, if_pos hk]
  · rw [result_loadRegs_getV, if_neg (Nat.not_le.2 hk)]
  · rw [Instr.result, State.loadFrom_eq]; rfl

/-! ## The draw -/

theorem result_drw_pixel (x y : Reg) (n : Nibble) (s : State) {col row : Nat} (hcol : col < 64) (hrow : row < 32) :
    (Instr.result (.drw x y n) s).pixel col row = true ↔ ¬ (s.pixel col row = true ↔ s.covers x y n col row) :=
  s.drawn_pixel x y n col row hcol hrow

/-- A pixel changes exactly when the sprite covers it (R163). -/
theorem result_drw_pixel_ne (x y : Reg) (n : Nibble) (s : State) {col row : Nat} (hcol : col < 64) (hrow : row < 32) :
    (Instr.result (.drw x y n) s).pixel col row ≠ s.pixel col row ↔ s.covers x y n col row := by
  rw [ne_eq, Bool.eq_iff_iff, result_drw_pixel x y n s hcol hrow]
  tauto

/-- A pixel inverted twice, or never, is as it was. -/
theorem eq_of_inverted_twice : ∀ {before between after : Bool}, (after ≠ between ↔ between ≠ before) → after = before := by decide

/-- An inverted pixel is lit exactly when it was off. -/
theorem lit_iff_of_inverted : ∀ {before after : Bool}, after ≠ before → (after = true ↔ before = false) := by decide

/-- VF is 1 exactly when a covered pixel was lit (R161). -/
theorem result_drw_vf (x y : Reg) (n : Nibble) (s : State) :
    (Instr.result (.drw x y n) s).getV VF = 1#8 ↔ ∃ col row, col < 64 ∧ row < 32 ∧ s.covers x y n col row ∧ s.pixel col row = true := by
  rw [← s.drawn_collision x y n]
  simp [Instr.result, flagByte]

/-- VF is a flag. -/
theorem result_drw_vf_flag (x y : Reg) (n : Nibble) (s : State) :
    (Instr.result (.drw x y n) s).getV VF = 1#8 ∨ (Instr.result (.drw x y n) s).getV VF = 0#8 := by
  cases h : (s.drawn x y n).collision <;> simp [Instr.result, flagByte, h]

/-- What a sprite covers depends on the coordinates, I, the bytes and the edge alone (R163). -/
theorem covers_congr {x y x' y' : Reg} {n : Nibble} {s t : State} (hx : (t.getV x').toNat % 64 = (s.getV x).toNat % 64)
    (hy : (t.getV y').toNat % 32 = (s.getV y).toNat % 32) (hi : t.i = s.i) (hbyte : ∀ a, t.readByte a = s.readByte a)
    (hcfg : t.cfg = s.cfg) (col row : Nat) : t.covers x' y' n col row ↔ s.covers x y n col row := by
  simp only [State.covers, hx, hy, hi, hbyte, hcfg]

/-- Settles O20: DXYN runs when no row is out of range, and its result inverts the covered pixels and writes the collision to VF. -/
theorem drawSpriteResult : Obligations.DrawSpriteResult := by
  intro x y n s
  refine ⟨fun hrun => ?_, fun hn hlarge => ?_⟩
  · refine ⟨_, exec_of_runs (i := .drw x y n) hrun, fun col row => result_drw_pixel x y n s, ?_, ?_, rfl,
      Instr.result_onlyChanges (.drw x y n) s⟩
    · rintro ⟨col, row, hcol, hrow, hcov, hlit⟩
      exact (result_drw_vf x y n s).2 ⟨col, row, hcol, hrow, hcov, hlit⟩
    · intro hclear
      refine (result_drw_vf_flag x y n s).resolve_left fun hone => ?_
      obtain ⟨col, row, hcol, hrow, hcov, hlit⟩ := (result_drw_vf x y n s).1 hone
      exact absurd hlit (by simp [hclear col row hcol hrow hcov])
  · have hnot : ¬ Instr.runs (.drw x y n) s := fun hrun => hrun.elim hn (Nat.not_le.2 hlarge)
    exact exec_of_not_runs hnot

/-- Settles O21: a pixel changes exactly when it is covered, so a lit one that is covered goes off; the second draw covers the same pixels,
so it inverts them back and collides with those that were off. -/
theorem collisionLaw : Obligations.CollisionLaw := by
  intro x y n s t _ h ht
  obtain ⟨hrun, rfl⟩ := runs_of_exec h ht
  refine ⟨?_, result_drw_vf_flag x y n s, fun col row => result_drw_pixel_ne x y n s, fun x' y' u hx hy hu => ?_⟩
  · rw [result_drw_vf]
    refine exists₂_congr fun col row => and_congr_right fun hcol => and_congr_right fun hrow => ?_
    rw [and_comm, ← result_drw_pixel_ne x y n s hcol hrow]
    exact and_congr_right fun hlit => by rw [hlit, ne_eq, Bool.not_eq_true]
  · have hrun' : Instr.runs (.drw x' y' n) (Instr.result (.drw x y n) s) := hrun
    obtain rfl := Host.Outcome.next.inj ((exec_of_runs hrun').symm.trans hu)
    have hcov := covers_congr (n := n) hx hy rfl (fun _ => rfl) rfl
    refine ⟨fun col row hcol hrow => ?_, ?_⟩
    · exact eq_of_inverted_twice ((result_drw_pixel_ne x' y' n _ hcol hrow).trans
        ((hcov col row).trans (result_drw_pixel_ne x y n s hcol hrow).symm))
    · rw [result_drw_vf]
      refine exists₂_congr fun col row => and_congr_right fun hcol => and_congr_right fun hrow => ?_
      rw [hcov]
      exact and_congr_right fun h => lit_iff_of_inverted ((result_drw_pixel_ne x y n s hcol hrow).2 h)

end Sys2Proof.Machine
end

section
/-! PROOFS. Two operations in a row: a CALL and its RET, a store and a load or a fetch of what it stored, the steps that change nothing, a tick
and an instruction, a LOAD and the first step (20_memory rule R64, 44_keypad_timers rule R172, 70_reset_and_hazards rules R243, R244 and
R247). -/

namespace Sys2Proof.Machine

/-! ## A tick and an instruction -/

theorem State.writeBytes_tick (s : State) (base : Nat) (bytes : List Byte) :
    s.tick.writeBytes base bytes = (s.writeBytes base bytes).tick := by
  induction bytes generalizing s base with
  | nil => rfl
  | cons b bytes ih =>
    have hbyte : s.tick.writeByte base b = (s.writeByte base b).tick := by
      unfold State.writeByte
      split <;> rfl
    simp only [State.writeBytes, hbyte, ih]

theorem State.loadFrom_tick (s : State) (base n : Nat) : s.tick.loadFrom base n = (s.loadFrom base n).tick := by
  induction n with
  | zero => rfl
  | succ n ih => simp only [State.loadFrom, ih]; rfl

/-- Whether an instruction runs does not depend on the timers. -/
theorem Instr.runs_tick (i : Instr) (s : State) : Instr.runs i s.tick = Instr.runs i s := by
  cases i <;> rfl

/-- What an instruction raises does not depend on the timers. -/
theorem Instr.raise_tick (i : Instr) (s : State) : Instr.raise i s.tick = Instr.raise i s := by
  cases i <;> rfl

/-- The result of an instruction that neither reads nor writes a timer goes with the tick (R172). -/
theorem Instr.result_tick {i : Instr} (s : State) (h07 : ∀ x, i ≠ .ldVxDt x) (h15 : ∀ x, i ≠ .ldDtVx x) (h18 : ∀ x, i ≠ .ldStVx x) :
    Instr.result i s.tick = (Instr.result i s).tick := by
  cases i
  case ldVxDt x => exact absurd rfl (h07 x)
  case ldDtVx x => exact absurd rfl (h15 x)
  case ldStVx x => exact absurd rfl (h18 x)
  case ldB x => exact State.writeBytes_tick s.advance _ _
  case storeRegs x => exact State.writeBytes_tick s.advance _ _
  case loadRegs x => exact State.loadFrom_tick s.advance _ _
  case ldVxK x =>
    have hkey : s.tick.lowestKey = s.lowestKey := rfl
    simp only [Instr.result, hkey]
    cases s.lowestKey <;> rfl
  all_goals rfl

/-! ## The obligations -/

/-- Settles O54: the result of RET on the result of CALL is a jump to PC + 2, with the entry pushed and popped again. -/
theorem callThenReturnResumes : Obligations.CallThenReturnResumes := by
  intro nnn s t u _ hcall ht hret
  obtain ⟨-, rfl⟩ := runs_of_exec hcall ht
  have hrun : Instr.runs .ret (Instr.result (.call nnn) s) := List.cons_ne_nil _ _
  obtain rfl := Host.Outcome.next.inj ((exec_of_runs hrun).symm.trans hret)
  exact ⟨rfl, s.jump_onlyChanges (s.pc + 2)⟩

/-- Settles O55: the load reads at I + k the byte the store put there. -/
theorem storeThenLoadRestoresRegisters : Obligations.StoreThenLoadRestoresRegisters := by
  intro x s t u w hmem _ hstore ht hu hi hbyte hload k hk
  obtain ⟨hrun, rfl⟩ := runs_of_exec hstore ht
  have hti : (Instr.result (.storeRegs x) s).i = s.i := State.writeBytes_i _ _ _
  have hrun' : Instr.runs (.loadRegs x) u := by
    show u.i.toNat + x.toNat < memSize
    rw [hi, hti]; exact hrun
  obtain rfl := Host.Outcome.next.inj ((exec_of_runs hrun').symm.trans hload)
  rw [result_loadRegs_getV, if_pos hk, hbyte, hi, hti, result_storeRegs_readByte hmem hrun hk]

/-- Settles O56: the fetch reads at I + k and I + k + 1 the bytes the store put there. -/
theorem storedBytesAreExecuted : Obligations.StoredBytesAreExecuted := by
  intro x k s t i hmem hs hstore ht hk hpc hdec
  obtain ⟨hrun, rfl⟩ := runs_of_exec hstore ht
  have hin : s.i.toNat + x.toNat < memSize := hrun
  have hnext : (k + 1).toNat = k.toNat + 1 := BitVec.toNat_add_of_lt (hk.trans_lt x.isLt)
  refine step_of_decode ht (by omega) ?_
  rw [State.wordAtPc, hpc, result_storeRegs_readByte hmem hrun (by omega), Nat.add_assoc, ← hnext,
    result_storeRegs_readByte hmem hrun (by omega), hdec]

/-- Settles O57: the result of the jump to PC, and of FX0A with no key pressed, is the state itself. -/
theorem selfLoopsAreFixedPoints : Obligations.SelfLoopsAreFixedPoints := by
  intro s i hs hpc hdec
  have hstep : step s = exec i s := step_of_decode hs hpc hdec
  refine ⟨fun nnn hi hself => ?_, fun x hi hnone => ?_⟩
  · subst hi
    have htarget : zext16 nnn = s.pc := BitVec.eq_of_toNat_eq ((zext16_toNat nnn).trans hself)
    rw [hstep, exec_of_runs (i := .jp nnn) trivial, Instr.result, htarget]
    rfl
  · subst hi
    obtain ⟨-, hidle, -⟩ := waitForKeyResult x s
    exact hstep.trans (hidle hnone)

/-- Settles O58: whether an instruction runs and what it raises do not depend on the timers, and its result goes with the tick. -/
theorem tickCommutesWithOtherInstructions : Obligations.TickCommutesWithOtherInstructions := by
  intro i s t h07 h15 h18 h
  obtain ⟨hrun, rfl⟩ | ⟨hnot, rfl⟩ := exec_cases h
  · rw [exec_of_runs (Instr.runs_tick i s ▸ hrun), Instr.result_tick s h07 h15 h18]
  · rw [exec_of_not_runs (Instr.runs_tick i s ▸ hnot), Instr.raise_tick]
    rfl

/-- Settles O59: the bytes fit, so LOAD puts the word's two bytes at PC and the first step fetches them. -/
theorem loadedProgramRuns : Obligations.LoadedProgramRuns := by
  intro c w i rest hdec hlen
  have hfits : 0x200 + (highByte w :: lowByte w :: rest).length ≤ memSize := by
    simp only [List.length_cons, memSize]; omega
  have hbyte := fun j hj => (State.construct c).writeBytes_readByte_inside 0x200 (highByte w :: lowByte w :: rest) j hj hfits rfl
  have hpc : ((State.construct c).writeBytes 0x200 (highByte w :: lowByte w :: rest)).pc.toNat = 0x200 := by
    rw [State.writeBytes_pc]; rfl
  refine ⟨_, congrArg Host.Outcome.next ((State.construct c).load_of_fits hfits), step_of_decode ?_ ?_ ?_,
    State.writeBytes_onlyChanges _ _ _⟩
  · exact State.writeBytes_fault _ _ _
  · rw [hpc]; decide
  · have hhi := hbyte 0 (by simp)
    have hlo := hbyte 1 (by simp)
    simp only [Nat.add_zero, List.getElem_cons_zero, List.getElem_cons_succ] at hhi hlo
    rw [State.wordAtPc, hpc, hhi, hlo, wordOfBytes_bytes, hdec]

end Sys2Proof.Machine
end
